-- ==== Sys2Proof/Word.lean ====
section
/-! DEFINITION. The word types of the unit and the numbers its command fields hold (00_scope.md R7, R8). -/

namespace Sys2Proof

/-- One byte of `MEM`; bit 0 is the least significant bit (00_scope.md R8). -/
abbrev Byte := BitVec 8

/-- What a general register holds (`XLEN = 64`, 00_scope.md R7). -/
abbrev Xword := BitVec 64

/-- A command word (`CMD_BITS = 32`, 30_encoding.md R60). -/
abbrev CmdWord := BitVec 32

/-- A general register number (`NX = 8`); every value is legal (30_encoding.md R63). -/
abbrev Reg := Fin 8

/-- A view descriptor number (`NV = 4`); every value is legal (30_encoding.md R63). -/
abbrev ViewIdx := Fin 4

/-- The scalar widths `wsel` selects (30_encoding.md R62). -/
inductive Width where
  | w8
  | w16
  | w32
  | w64
  deriving DecidableEq, Repr

/-- `W`, the number of bits of a scalar width (30_encoding.md R62: `W = 8 << wsel`). -/
def Width.bits : Width → Nat
  | .w8 => 8
  | .w16 => 16
  | .w32 => 32
  | .w64 => 64

end Sys2Proof
end

