-- ==== Sys2Proof/Syntax.lean ====
section
/-! DEFINITION. The commands of the unit: one constructor per row of the opcode table (30_encoding.md R67). -/

namespace Sys2Proof

/-- The 43 commands (30_encoding.md R67). Scalar commands carry their width `w` (`wsel`), then the destination
and the sources in the assembler's order (R71); there are no immediates (R66). -/
inductive Instr where
  /-- `RDBIT.C`: checked single-bit read (41_scalar_bit_ops.md R101). -/
  | rdbitC (w : Width) (rd rs1 rs2 : Reg)
  /-- `RDBIT.U`: unchecked single-bit read (41_scalar_bit_ops.md R102). -/
  | rdbitU (w : Width) (rd rs1 rs2 : Reg)
  /-- `RDBIT.F`: fast single-bit read (41_scalar_bit_ops.md R103). -/
  | rdbitF (w : Width) (rd rs1 rs2 : Reg)
  /-- `WRBIT.C`: checked single-bit write (41_scalar_bit_ops.md R104). -/
  | wrbitC (w : Width) (rd rs1 rs2 rs3 : Reg)
  /-- `WRBIT.U`: unchecked single-bit write (41_scalar_bit_ops.md R105). -/
  | wrbitU (w : Width) (rd rs1 rs2 rs3 : Reg)
  /-- `WRBIT.F`: fast single-bit write (41_scalar_bit_ops.md R106). -/
  | wrbitF (w : Width) (rd rs1 rs2 rs3 : Reg)
  /-- `SETBIT.C`: checked set (41_scalar_bit_ops.md R107). -/
  | setbitC (w : Width) (rd rs1 rs2 : Reg)
  /-- `SETBIT.U`: unchecked set (41_scalar_bit_ops.md R108). -/
  | setbitU (w : Width) (rd rs1 rs2 : Reg)
  /-- `SETBIT.F`: fast set (41_scalar_bit_ops.md R109). -/
  | setbitF (w : Width) (rd rs1 rs2 : Reg)
  /-- `CLRBIT.C`: checked clear (41_scalar_bit_ops.md R110). -/
  | clrbitC (w : Width) (rd rs1 rs2 : Reg)
  /-- `CLRBIT.U`: unchecked clear (41_scalar_bit_ops.md R111). -/
  | clrbitU (w : Width) (rd rs1 rs2 : Reg)
  /-- `CLRBIT.F`: fast clear (41_scalar_bit_ops.md R112). -/
  | clrbitF (w : Width) (rd rs1 rs2 : Reg)
  /-- `TGLBIT.C`: checked toggle (41_scalar_bit_ops.md R113). -/
  | tglbitC (w : Width) (rd rs1 rs2 : Reg)
  /-- `TGLBIT.U`: unchecked toggle (41_scalar_bit_ops.md R114). -/
  | tglbitU (w : Width) (rd rs1 rs2 : Reg)
  /-- `TGLBIT.F`: fast toggle (41_scalar_bit_ops.md R115). -/
  | tglbitF (w : Width) (rd rs1 rs2 : Reg)
  /-- `RDBITS.C`: checked field read (41_scalar_bit_ops.md R116). -/
  | rdbitsC (w : Width) (rd rs1 rs2 rs3 : Reg)
  /-- `RDBITS.U`: unchecked field read (41_scalar_bit_ops.md R117). -/
  | rdbitsU (w : Width) (rd rs1 rs2 rs3 : Reg)
  /-- `RDBITS.F`: fast field read (41_scalar_bit_ops.md R118). -/
  | rdbitsF (w : Width) (rd rs1 rs2 rs3 : Reg)
  /-- `WRBITS.C`: checked field write (41_scalar_bit_ops.md R119). -/
  | wrbitsC (w : Width) (rd rs1 rs2 rs3 rs4 : Reg)
  /-- `WRBITS.U`: unchecked field write (41_scalar_bit_ops.md R120). -/
  | wrbitsU (w : Width) (rd rs1 rs2 rs3 rs4 : Reg)
  /-- `WRBITS.F`: fast field write (41_scalar_bit_ops.md R121). -/
  | wrbitsF (w : Width) (rd rs1 rs2 rs3 rs4 : Reg)
  /-- `BGET` (42_buffer_bit_ops.md R131). -/
  | bget (rd rs1 : Reg)
  /-- `BSET` (42_buffer_bit_ops.md R132). -/
  | bset (rs1 : Reg)
  /-- `BCLR` (42_buffer_bit_ops.md R133). -/
  | bclr (rs1 : Reg)
  /-- `BWR` (42_buffer_bit_ops.md R134). -/
  | bwr (rs1 rs2 : Reg)
  /-- `BWRBITS` (42_buffer_bit_ops.md R135). -/
  | bwrbits (rs1 rs2 rs3 : Reg)
  /-- `VNEW` (43_bit_view.md R141). -/
  | vnew (vd : ViewIdx) (rs1 rs2 : Reg)
  /-- `VNEWS` (43_bit_view.md R142). -/
  | vnews (vd : ViewIdx) (rs1 rs2 rs3 : Reg)
  /-- `VNEWSL` (43_bit_view.md R143). -/
  | vnewsl (vd : ViewIdx) (rs1 rs2 rs3 rs4 : Reg)
  /-- `VGET` (43_bit_view.md R144). -/
  | vget (rd : Reg) (va : ViewIdx) (rs1 : Reg)
  /-- `VPUT` (43_bit_view.md R145). -/
  | vput (va : ViewIdx) (rs1 rs2 : Reg)
  /-- `VLEN` (43_bit_view.md R146). -/
  | vlen (rd : Reg) (va : ViewIdx)
  /-- `VEMPTY` (43_bit_view.md R147). -/
  | vempty (rd : Reg) (va : ViewIdx)
  /-- `VCLR` (43_bit_view.md R149). -/
  | vclr (va : ViewIdx)
  /-- `VSET` (43_bit_view.md R150). -/
  | vset (va : ViewIdx)
  /-- `VFILL` (43_bit_view.md R151). -/
  | vfill (va : ViewIdx) (rs1 : Reg)
  /-- `VEQ` (43_bit_view.md R153). -/
  | veq (rd : Reg) (va vb : ViewIdx)
  /-- `VNE` (43_bit_view.md R154). -/
  | vne (rd : Reg) (va vb : ViewIdx)
  /-- `VEQUALS` (43_bit_view.md R155). -/
  | vequals (rd : Reg) (va vb : ViewIdx)
  /-- `VHASH` (43_bit_view.md R156). -/
  | vhash (rd : Reg) (va : ViewIdx)
  /-- `CHK3` (44_bounded_scalar.md R171). -/
  | chk3 (rd rs1 : Reg)
  /-- `CHK1` (44_bounded_scalar.md R172). -/
  | chk1 (rd rs1 : Reg)
  /-- `CHK2` (44_bounded_scalar.md R173). -/
  | chk2 (rd rs1 : Reg)
  deriving DecidableEq, Repr

end Sys2Proof
end

