-- ==== Sys2Proof/WellFormed.lean ====
section
/-! DEFINITION. Which command words are commands, read from the field rules (30_encoding.md R60 to R65, R68) and not
from the match and mask columns of R67: `Decode` follows those columns, and the two are stated to agree.
A term of `Instr` needs no check of its own: every register number, view number and `wsel` is legal (R62, R63), and
the types `Reg`, `ViewIdx` and `Width` hold exactly those. -/

namespace Sys2Proof

/-- `bits[hi:lo]` of a word (00_scope.md R10). -/
def bitsOf (w : CmdWord) (hi lo : Nat) : Nat := w.toNat / 2 ^ lo % 2 ^ (hi - lo + 1)

/-- The operand fields of the layout of R60, other than `op`, `var`, `wsel` and `zero`. -/
inductive OperandField where
  | rd
  | rs1
  | rs2
  | rs3
  | rs4
  | va
  | vb
  deriving DecidableEq, Repr

/-- The value of an operand field in a word (30_encoding.md R60). -/
def OperandField.of : OperandField → CmdWord → Nat
  | .rd, w => bitsOf w 21 19
  | .rs1, w => bitsOf w 18 16
  | .rs2, w => bitsOf w 15 13
  | .rs3, w => bitsOf w 12 10
  | .rs4, w => bitsOf w 9 7
  | .va, w => bitsOf w 6 5
  | .vb, w => bitsOf w 4 3

/-- The operand fields a major opcode leaves unused (30_encoding.md R67, column "used fields"); `none` for an
unassigned opcode. -/
def unusedFields : Nat → Option (List OperandField)
  | 0x01 | 0x03 | 0x04 | 0x05 => some [.rs3, .rs4, .va, .vb]
  | 0x02 | 0x06 => some [.rs4, .va, .vb]
  | 0x07 => some [.va, .vb]
  | 0x10 | 0x30 | 0x31 | 0x32 => some [.rs2, .rs3, .rs4, .va, .vb]
  | 0x11 | 0x12 => some [.rd, .rs2, .rs3, .rs4, .va, .vb]
  | 0x13 => some [.rd, .rs3, .rs4, .va, .vb]
  | 0x14 => some [.rd, .rs4, .va, .vb]
  | 0x20 | 0x24 => some [.rd, .rs3, .rs4, .vb]
  | 0x21 => some [.rd, .rs4, .vb]
  | 0x22 => some [.rd, .vb]
  | 0x23 => some [.rs2, .rs3, .rs4, .vb]
  | 0x25 | 0x26 | 0x2D => some [.rs1, .rs2, .rs3, .rs4, .vb]
  | 0x27 | 0x28 => some [.rd, .rs1, .rs2, .rs3, .rs4, .vb]
  | 0x29 => some [.rd, .rs2, .rs3, .rs4, .vb]
  | 0x2A | 0x2B | 0x2C => some [.rs1, .rs2, .rs3, .rs4]
  | _ => none

/-- The opcode is one of the scalar commands (30_encoding.md R67: `0x01` to `0x07`). -/
def isScalarOp (op : Nat) : Bool := 0x01 ≤ op && op ≤ 0x07

/-- Check 1 (30_encoding.md R68): the major opcode is assigned. -/
def opAssigned (w : CmdWord) : Bool := (unusedFields (bitsOf w 31 26)).isSome

/-- Check 2 (30_encoding.md R61, R62, R68): a scalar command has `var` 0, 1 or 2; every other command has `var` and
`wsel` zero. -/
def variantLegal (w : CmdWord) : Bool :=
  if isScalarOp (bitsOf w 31 26) then bitsOf w 25 24 != 3
  else bitsOf w 25 24 == 0 && bitsOf w 23 22 == 0

/-- Check 3 (30_encoding.md R65, R68): every field the command does not use, and `zero`, is zero. -/
def unusedZero (w : CmdWord) : Bool :=
  bitsOf w 2 0 == 0 && ((unusedFields (bitsOf w 31 26)).getD []).all fun f => f.of w == 0

/-- A word that is a command: R68 calls every other word illegal. -/
def wellFormedWord (w : CmdWord) : Bool := opAssigned w && variantLegal w && unusedZero w

end Sys2Proof
end

