-- ==== Sys2Proof/Decode.lean ====
section
/-! DEFINITION. Decoding a command word by the match and mask columns of 30_encoding.md R67 as R73 says, the encoder
written from the field layout of R60, and the assembler text of R71. -/

namespace Sys2Proof

/-- The fields of a command word (30_encoding.md R60), most significant first. A field left out is zero (R65). -/
structure Fields where
  op : BitVec 6 := 0
  var : BitVec 2 := 0
  wsel : BitVec 2 := 0
  rd : BitVec 3 := 0
  rs1 : BitVec 3 := 0
  rs2 : BitVec 3 := 0
  rs3 : BitVec 3 := 0
  rs4 : BitVec 3 := 0
  va : BitVec 2 := 0
  vb : BitVec 2 := 0
  zero : BitVec 3 := 0
  deriving DecidableEq, Repr

/-- The fields of a word (30_encoding.md R60). -/
def fieldsOf (w : CmdWord) : Fields where
  op := w.extractLsb' 26 6
  var := w.extractLsb' 24 2
  wsel := w.extractLsb' 22 2
  rd := w.extractLsb' 19 3
  rs1 := w.extractLsb' 16 3
  rs2 := w.extractLsb' 13 3
  rs3 := w.extractLsb' 10 3
  rs4 := w.extractLsb' 7 3
  va := w.extractLsb' 5 2
  vb := w.extractLsb' 3 2
  zero := w.extractLsb' 0 3

/-- The word of a list of fields (30_encoding.md R60: `op ++ var ++ wsel ++ rd ++ rs1 ++ rs2 ++ rs3 ++ rs4 ++ va ++
vb ++ zero`). -/
def packFields (f : Fields) : CmdWord :=
  f.op ++ f.var ++ f.wsel ++ f.rd ++ f.rs1 ++ f.rs2 ++ f.rs3 ++ f.rs4 ++ f.va ++ f.vb ++ f.zero

/-- The width a `wsel` selects (30_encoding.md R62). -/
def widthOf (wsel : BitVec 2) : Width :=
  if wsel = 0 then .w8 else if wsel = 1 then .w16 else if wsel = 2 then .w32 else .w64

/-- The `wsel` of a width (30_encoding.md R62). -/
def wselOf : Width → BitVec 2
  | .w8 => 0
  | .w16 => 1
  | .w32 => 2
  | .w64 => 3

/-- The register a 3-bit field names (30_encoding.md R63). -/
def regOf (b : BitVec 3) : Reg := b.toFin

/-- The 3-bit field of a register (30_encoding.md R63). -/
def regField (r : Reg) : BitVec 3 := .ofFin r

/-- The descriptor a 2-bit field names (30_encoding.md R63). -/
def viewOf (b : BitVec 2) : ViewIdx := b.toFin

/-- The 2-bit field of a descriptor (30_encoding.md R63). -/
def viewField (k : ViewIdx) : BitVec 2 := .ofFin k

/-- The scalar width of a command word's fields (30_encoding.md R62). -/
def Fields.width (f : Fields) : Width := widthOf f.wsel
/-- The register `rd` names. -/
def Fields.rdReg (f : Fields) : Reg := regOf f.rd
/-- The register `rs1` names. -/
def Fields.rs1Reg (f : Fields) : Reg := regOf f.rs1
/-- The register `rs2` names. -/
def Fields.rs2Reg (f : Fields) : Reg := regOf f.rs2
/-- The register `rs3` names. -/
def Fields.rs3Reg (f : Fields) : Reg := regOf f.rs3
/-- The register `rs4` names. -/
def Fields.rs4Reg (f : Fields) : Reg := regOf f.rs4
/-- The descriptor `va` names. -/
def Fields.vaIdx (f : Fields) : ViewIdx := viewOf f.va
/-- The descriptor `vb` names. -/
def Fields.vbIdx (f : Fields) : ViewIdx := viewOf f.vb

/-- One row of the opcode table: its mnemonic, match and mask, and the command its fields make. -/
structure Row where
  mnemonic : String
  mtch : CmdWord
  mask : CmdWord
  build : Fields → Instr

/-- A word is the command of a row: `(w & mask) == match` (30_encoding.md R67). -/
def Row.hits (r : Row) (w : CmdWord) : Bool := w &&& r.mask == r.mtch

/-- Scalar Bit Ops (30_encoding.md R67). -/
def scalarRows : List Row :=
  [ ⟨"RDBIT.C", 0x04000000, 0xFF001FFF,
      fun f => .rdbitC f.width f.rdReg f.rs1Reg f.rs2Reg⟩
  , ⟨"RDBIT.U", 0x05000000, 0xFF001FFF,
      fun f => .rdbitU f.width f.rdReg f.rs1Reg f.rs2Reg⟩
  , ⟨"RDBIT.F", 0x06000000, 0xFF001FFF,
      fun f => .rdbitF f.width f.rdReg f.rs1Reg f.rs2Reg⟩
  , ⟨"WRBIT.C", 0x08000000, 0xFF0003FF,
      fun f => .wrbitC f.width f.rdReg f.rs1Reg f.rs2Reg f.rs3Reg⟩
  , ⟨"WRBIT.U", 0x09000000, 0xFF0003FF,
      fun f => .wrbitU f.width f.rdReg f.rs1Reg f.rs2Reg f.rs3Reg⟩
  , ⟨"WRBIT.F", 0x0A000000, 0xFF0003FF,
      fun f => .wrbitF f.width f.rdReg f.rs1Reg f.rs2Reg f.rs3Reg⟩
  , ⟨"SETBIT.C", 0x0C000000, 0xFF001FFF,
      fun f => .setbitC f.width f.rdReg f.rs1Reg f.rs2Reg⟩
  , ⟨"SETBIT.U", 0x0D000000, 0xFF001FFF,
      fun f => .setbitU f.width f.rdReg f.rs1Reg f.rs2Reg⟩
  , ⟨"SETBIT.F", 0x0E000000, 0xFF001FFF,
      fun f => .setbitF f.width f.rdReg f.rs1Reg f.rs2Reg⟩
  , ⟨"CLRBIT.C", 0x10000000, 0xFF001FFF,
      fun f => .clrbitC f.width f.rdReg f.rs1Reg f.rs2Reg⟩
  , ⟨"CLRBIT.U", 0x11000000, 0xFF001FFF,
      fun f => .clrbitU f.width f.rdReg f.rs1Reg f.rs2Reg⟩
  , ⟨"CLRBIT.F", 0x12000000, 0xFF001FFF,
      fun f => .clrbitF f.width f.rdReg f.rs1Reg f.rs2Reg⟩
  , ⟨"TGLBIT.C", 0x14000000, 0xFF001FFF,
      fun f => .tglbitC f.width f.rdReg f.rs1Reg f.rs2Reg⟩
  , ⟨"TGLBIT.U", 0x15000000, 0xFF001FFF,
      fun f => .tglbitU f.width f.rdReg f.rs1Reg f.rs2Reg⟩
  , ⟨"TGLBIT.F", 0x16000000, 0xFF001FFF,
      fun f => .tglbitF f.width f.rdReg f.rs1Reg f.rs2Reg⟩
  , ⟨"RDBITS.C", 0x18000000, 0xFF0003FF,
      fun f => .rdbitsC f.width f.rdReg f.rs1Reg f.rs2Reg f.rs3Reg⟩
  , ⟨"RDBITS.U", 0x19000000, 0xFF0003FF,
      fun f => .rdbitsU f.width f.rdReg f.rs1Reg f.rs2Reg f.rs3Reg⟩
  , ⟨"RDBITS.F", 0x1A000000, 0xFF0003FF,
      fun f => .rdbitsF f.width f.rdReg f.rs1Reg f.rs2Reg f.rs3Reg⟩
  , ⟨"WRBITS.C", 0x1C000000, 0xFF00007F,
      fun f => .wrbitsC f.width f.rdReg f.rs1Reg f.rs2Reg f.rs3Reg f.rs4Reg⟩
  , ⟨"WRBITS.U", 0x1D000000, 0xFF00007F,
      fun f => .wrbitsU f.width f.rdReg f.rs1Reg f.rs2Reg f.rs3Reg f.rs4Reg⟩
  , ⟨"WRBITS.F", 0x1E000000, 0xFF00007F,
      fun f => .wrbitsF f.width f.rdReg f.rs1Reg f.rs2Reg f.rs3Reg f.rs4Reg⟩ ]

/-- Byte-Buffer Bit Ops (30_encoding.md R67). -/
def bufferRows : List Row :=
  [ ⟨"BGET", 0x40000000, 0xFFC0FFFF,
      fun f => .bget f.rdReg f.rs1Reg⟩
  , ⟨"BSET", 0x44000000, 0xFFF8FFFF,
      fun f => .bset f.rs1Reg⟩
  , ⟨"BCLR", 0x48000000, 0xFFF8FFFF,
      fun f => .bclr f.rs1Reg⟩
  , ⟨"BWR", 0x4C000000, 0xFFF81FFF,
      fun f => .bwr f.rs1Reg f.rs2Reg⟩
  , ⟨"BWRBITS", 0x50000000, 0xFFF803FF,
      fun f => .bwrbits f.rs1Reg f.rs2Reg f.rs3Reg⟩ ]

/-- Bit View (30_encoding.md R67). -/
def viewRows : List Row :=
  [ ⟨"VNEW", 0x80000000, 0xFFF81F9F,
      fun f => .vnew f.vaIdx f.rs1Reg f.rs2Reg⟩
  , ⟨"VNEWS", 0x84000000, 0xFFF8039F,
      fun f => .vnews f.vaIdx f.rs1Reg f.rs2Reg f.rs3Reg⟩
  , ⟨"VNEWSL", 0x88000000, 0xFFF8001F,
      fun f => .vnewsl f.vaIdx f.rs1Reg f.rs2Reg f.rs3Reg f.rs4Reg⟩
  , ⟨"VGET", 0x8C000000, 0xFFC0FF9F,
      fun f => .vget f.rdReg f.vaIdx f.rs1Reg⟩
  , ⟨"VPUT", 0x90000000, 0xFFF81F9F,
      fun f => .vput f.vaIdx f.rs1Reg f.rs2Reg⟩
  , ⟨"VLEN", 0x94000000, 0xFFC7FF9F,
      fun f => .vlen f.rdReg f.vaIdx⟩
  , ⟨"VEMPTY", 0x98000000, 0xFFC7FF9F,
      fun f => .vempty f.rdReg f.vaIdx⟩
  , ⟨"VCLR", 0x9C000000, 0xFFFFFF9F,
      fun f => .vclr f.vaIdx⟩
  , ⟨"VSET", 0xA0000000, 0xFFFFFF9F,
      fun f => .vset f.vaIdx⟩
  , ⟨"VFILL", 0xA4000000, 0xFFF8FF9F,
      fun f => .vfill f.vaIdx f.rs1Reg⟩
  , ⟨"VEQ", 0xA8000000, 0xFFC7FF87,
      fun f => .veq f.rdReg f.vaIdx f.vbIdx⟩
  , ⟨"VNE", 0xAC000000, 0xFFC7FF87,
      fun f => .vne f.rdReg f.vaIdx f.vbIdx⟩
  , ⟨"VEQUALS", 0xB0000000, 0xFFC7FF87,
      fun f => .vequals f.rdReg f.vaIdx f.vbIdx⟩
  , ⟨"VHASH", 0xB4000000, 0xFFC7FF9F,
      fun f => .vhash f.rdReg f.vaIdx⟩ ]

/-- Bounded Scalar Types (30_encoding.md R67). -/
def boundedRows : List Row :=
  [ ⟨"CHK3", 0xC0000000, 0xFFC0FFFF,
      fun f => .chk3 f.rdReg f.rs1Reg⟩
  , ⟨"CHK1", 0xC4000000, 0xFFC0FFFF,
      fun f => .chk1 f.rdReg f.rs1Reg⟩
  , ⟨"CHK2", 0xC8000000, 0xFFC0FFFF,
      fun f => .chk2 f.rdReg f.rs1Reg⟩ ]

/-- The opcode table (30_encoding.md R67): 43 rows. -/
def opcodeTable : List Row := scalarRows ++ bufferRows ++ viewRows ++ boundedRows

/-- What decoding a word gives (30_encoding.md R73). -/
inductive Decoded where
  /-- The word is this command. -/
  | command (i : Instr)
  /-- The word matches no row (30_encoding.md R68); running it raises `IllegalCommand`. -/
  | illegal
  deriving DecidableEq, Repr

/-- `decode` of 30_encoding.md R73: the first row the word hits, with the word's fields; total on 32-bit words. -/
def decode (w : CmdWord) : Decoded :=
  match opcodeTable.find? (·.hits w) with
  | some r => .command (r.build (fieldsOf w))
  | none => .illegal

/-- The instruction the decoder reads from the low `nbits` bits of `w`, the bits above them zero. A command is exactly
one 32-bit word (30_encoding.md R60, R70), presented whole, so there is no byte order to apply (20_memory.md R52). -/
def decodeTableWord (nbits w : Nat) : Option Instr :=
  match decode (BitVec.ofNat 32 (w % 2 ^ nbits)) with
  | .command i => some i
  | .illegal => none

/-- The fields of a command: the opcode and variant of R67, the operands in the fields R67 names, zeros elsewhere
(30_encoding.md R65). -/
def instrFields : Instr → Fields
  | .rdbitC w rd rs1 rs2 =>
    { op := 0x01, var := 0, wsel := wselOf w, rd := regField rd, rs1 := regField rs1, rs2 := regField rs2 }
  | .rdbitU w rd rs1 rs2 =>
    { op := 0x01, var := 1, wsel := wselOf w, rd := regField rd, rs1 := regField rs1, rs2 := regField rs2 }
  | .rdbitF w rd rs1 rs2 =>
    { op := 0x01, var := 2, wsel := wselOf w, rd := regField rd, rs1 := regField rs1, rs2 := regField rs2 }
  | .wrbitC w rd rs1 rs2 rs3 =>
    { op := 0x02, var := 0, wsel := wselOf w, rd := regField rd, rs1 := regField rs1, rs2 := regField rs2, rs3 := regField rs3 }
  | .wrbitU w rd rs1 rs2 rs3 =>
    { op := 0x02, var := 1, wsel := wselOf w, rd := regField rd, rs1 := regField rs1, rs2 := regField rs2, rs3 := regField rs3 }
  | .wrbitF w rd rs1 rs2 rs3 =>
    { op := 0x02, var := 2, wsel := wselOf w, rd := regField rd, rs1 := regField rs1, rs2 := regField rs2, rs3 := regField rs3 }
  | .setbitC w rd rs1 rs2 =>
    { op := 0x03, var := 0, wsel := wselOf w, rd := regField rd, rs1 := regField rs1, rs2 := regField rs2 }
  | .setbitU w rd rs1 rs2 =>
    { op := 0x03, var := 1, wsel := wselOf w, rd := regField rd, rs1 := regField rs1, rs2 := regField rs2 }
  | .setbitF w rd rs1 rs2 =>
    { op := 0x03, var := 2, wsel := wselOf w, rd := regField rd, rs1 := regField rs1, rs2 := regField rs2 }
  | .clrbitC w rd rs1 rs2 =>
    { op := 0x04, var := 0, wsel := wselOf w, rd := regField rd, rs1 := regField rs1, rs2 := regField rs2 }
  | .clrbitU w rd rs1 rs2 =>
    { op := 0x04, var := 1, wsel := wselOf w, rd := regField rd, rs1 := regField rs1, rs2 := regField rs2 }
  | .clrbitF w rd rs1 rs2 =>
    { op := 0x04, var := 2, wsel := wselOf w, rd := regField rd, rs1 := regField rs1, rs2 := regField rs2 }
  | .tglbitC w rd rs1 rs2 =>
    { op := 0x05, var := 0, wsel := wselOf w, rd := regField rd, rs1 := regField rs1, rs2 := regField rs2 }
  | .tglbitU w rd rs1 rs2 =>
    { op := 0x05, var := 1, wsel := wselOf w, rd := regField rd, rs1 := regField rs1, rs2 := regField rs2 }
  | .tglbitF w rd rs1 rs2 =>
    { op := 0x05, var := 2, wsel := wselOf w, rd := regField rd, rs1 := regField rs1, rs2 := regField rs2 }
  | .rdbitsC w rd rs1 rs2 rs3 =>
    { op := 0x06, var := 0, wsel := wselOf w, rd := regField rd, rs1 := regField rs1, rs2 := regField rs2, rs3 := regField rs3 }
  | .rdbitsU w rd rs1 rs2 rs3 =>
    { op := 0x06, var := 1, wsel := wselOf w, rd := regField rd, rs1 := regField rs1, rs2 := regField rs2, rs3 := regField rs3 }
  | .rdbitsF w rd rs1 rs2 rs3 =>
    { op := 0x06, var := 2, wsel := wselOf w, rd := regField rd, rs1 := regField rs1, rs2 := regField rs2, rs3 := regField rs3 }
  | .wrbitsC w rd rs1 rs2 rs3 rs4 =>
    { op := 0x07, var := 0, wsel := wselOf w, rd := regField rd, rs1 := regField rs1, rs2 := regField rs2, rs3 := regField rs3, rs4 := regField rs4 }
  | .wrbitsU w rd rs1 rs2 rs3 rs4 =>
    { op := 0x07, var := 1, wsel := wselOf w, rd := regField rd, rs1 := regField rs1, rs2 := regField rs2, rs3 := regField rs3, rs4 := regField rs4 }
  | .wrbitsF w rd rs1 rs2 rs3 rs4 =>
    { op := 0x07, var := 2, wsel := wselOf w, rd := regField rd, rs1 := regField rs1, rs2 := regField rs2, rs3 := regField rs3, rs4 := regField rs4 }
  | .bget rd rs1 =>
    { op := 0x10, rd := regField rd, rs1 := regField rs1 }
  | .bset rs1 =>
    { op := 0x11, rs1 := regField rs1 }
  | .bclr rs1 =>
    { op := 0x12, rs1 := regField rs1 }
  | .bwr rs1 rs2 =>
    { op := 0x13, rs1 := regField rs1, rs2 := regField rs2 }
  | .bwrbits rs1 rs2 rs3 =>
    { op := 0x14, rs1 := regField rs1, rs2 := regField rs2, rs3 := regField rs3 }
  | .vnew vd rs1 rs2 =>
    { op := 0x20, va := viewField vd, rs1 := regField rs1, rs2 := regField rs2 }
  | .vnews vd rs1 rs2 rs3 =>
    { op := 0x21, va := viewField vd, rs1 := regField rs1, rs2 := regField rs2, rs3 := regField rs3 }
  | .vnewsl vd rs1 rs2 rs3 rs4 =>
    { op := 0x22, va := viewField vd, rs1 := regField rs1, rs2 := regField rs2, rs3 := regField rs3, rs4 := regField rs4 }
  | .vget rd va rs1 =>
    { op := 0x23, rd := regField rd, va := viewField va, rs1 := regField rs1 }
  | .vput va rs1 rs2 =>
    { op := 0x24, va := viewField va, rs1 := regField rs1, rs2 := regField rs2 }
  | .vlen rd va =>
    { op := 0x25, rd := regField rd, va := viewField va }
  | .vempty rd va =>
    { op := 0x26, rd := regField rd, va := viewField va }
  | .vclr va =>
    { op := 0x27, va := viewField va }
  | .vset va =>
    { op := 0x28, va := viewField va }
  | .vfill va rs1 =>
    { op := 0x29, va := viewField va, rs1 := regField rs1 }
  | .veq rd va vb =>
    { op := 0x2A, rd := regField rd, va := viewField va, vb := viewField vb }
  | .vne rd va vb =>
    { op := 0x2B, rd := regField rd, va := viewField va, vb := viewField vb }
  | .vequals rd va vb =>
    { op := 0x2C, rd := regField rd, va := viewField va, vb := viewField vb }
  | .vhash rd va =>
    { op := 0x2D, rd := regField rd, va := viewField va }
  | .chk3 rd rs1 =>
    { op := 0x30, rd := regField rd, rs1 := regField rs1 }
  | .chk1 rd rs1 =>
    { op := 0x31, rd := regField rd, rs1 := regField rs1 }
  | .chk2 rd rs1 =>
    { op := 0x32, rd := regField rd, rs1 := regField rs1 }

/-- The word of a command (30_encoding.md R60, R65, R67). -/
def encode (i : Instr) : CmdWord := packFields (instrFields i)

/-- The mnemonic of a command, as the opcode table spells it (30_encoding.md R67). -/
def Instr.mnemonic : Instr → String
  | .rdbitC _ _ _ _ => "RDBIT.C"
  | .rdbitU _ _ _ _ => "RDBIT.U"
  | .rdbitF _ _ _ _ => "RDBIT.F"
  | .wrbitC _ _ _ _ _ => "WRBIT.C"
  | .wrbitU _ _ _ _ _ => "WRBIT.U"
  | .wrbitF _ _ _ _ _ => "WRBIT.F"
  | .setbitC _ _ _ _ => "SETBIT.C"
  | .setbitU _ _ _ _ => "SETBIT.U"
  | .setbitF _ _ _ _ => "SETBIT.F"
  | .clrbitC _ _ _ _ => "CLRBIT.C"
  | .clrbitU _ _ _ _ => "CLRBIT.U"
  | .clrbitF _ _ _ _ => "CLRBIT.F"
  | .tglbitC _ _ _ _ => "TGLBIT.C"
  | .tglbitU _ _ _ _ => "TGLBIT.U"
  | .tglbitF _ _ _ _ => "TGLBIT.F"
  | .rdbitsC _ _ _ _ _ => "RDBITS.C"
  | .rdbitsU _ _ _ _ _ => "RDBITS.U"
  | .rdbitsF _ _ _ _ _ => "RDBITS.F"
  | .wrbitsC _ _ _ _ _ _ => "WRBITS.C"
  | .wrbitsU _ _ _ _ _ _ => "WRBITS.U"
  | .wrbitsF _ _ _ _ _ _ => "WRBITS.F"
  | .bget _ _ => "BGET"
  | .bset _ => "BSET"
  | .bclr _ => "BCLR"
  | .bwr _ _ => "BWR"
  | .bwrbits _ _ _ => "BWRBITS"
  | .vnew _ _ _ => "VNEW"
  | .vnews _ _ _ _ => "VNEWS"
  | .vnewsl _ _ _ _ _ => "VNEWSL"
  | .vget _ _ _ => "VGET"
  | .vput _ _ _ => "VPUT"
  | .vlen _ _ => "VLEN"
  | .vempty _ _ => "VEMPTY"
  | .vclr _ => "VCLR"
  | .vset _ => "VSET"
  | .vfill _ _ => "VFILL"
  | .veq _ _ _ => "VEQ"
  | .vne _ _ _ => "VNE"
  | .vequals _ _ _ => "VEQUALS"
  | .vhash _ _ => "VHASH"
  | .chk3 _ _ => "CHK3"
  | .chk1 _ _ => "CHK1"
  | .chk2 _ _ => "CHK2"

/-- The assembler's name of a general register (30_encoding.md R71). -/
def regText (r : Reg) : String := "x" ++ toString r.val

/-- The assembler's name of a view descriptor (30_encoding.md R71). -/
def viewText (k : ViewIdx) : String := "v" ++ toString k.val

/-- The assembler's width suffix (30_encoding.md R62, R71; the spelling `.W8` of R62 and of its example). -/
def widthText (w : Width) : String := ".W" ++ toString w.bits

/-- The assembler text of a command (30_encoding.md R71): destination first, then the sources in field order. -/
def Instr.text (i : Instr) : String :=
  let regs (suffix : String) (ops : List String) : String := i.mnemonic ++ suffix ++ " " ++ ", ".intercalate ops
  match i with
  | .rdbitC w rd rs1 rs2 => regs (widthText w) [regText rd, regText rs1, regText rs2]
  | .rdbitU w rd rs1 rs2 => regs (widthText w) [regText rd, regText rs1, regText rs2]
  | .rdbitF w rd rs1 rs2 => regs (widthText w) [regText rd, regText rs1, regText rs2]
  | .wrbitC w rd rs1 rs2 rs3 => regs (widthText w) [regText rd, regText rs1, regText rs2, regText rs3]
  | .wrbitU w rd rs1 rs2 rs3 => regs (widthText w) [regText rd, regText rs1, regText rs2, regText rs3]
  | .wrbitF w rd rs1 rs2 rs3 => regs (widthText w) [regText rd, regText rs1, regText rs2, regText rs3]
  | .setbitC w rd rs1 rs2 => regs (widthText w) [regText rd, regText rs1, regText rs2]
  | .setbitU w rd rs1 rs2 => regs (widthText w) [regText rd, regText rs1, regText rs2]
  | .setbitF w rd rs1 rs2 => regs (widthText w) [regText rd, regText rs1, regText rs2]
  | .clrbitC w rd rs1 rs2 => regs (widthText w) [regText rd, regText rs1, regText rs2]
  | .clrbitU w rd rs1 rs2 => regs (widthText w) [regText rd, regText rs1, regText rs2]
  | .clrbitF w rd rs1 rs2 => regs (widthText w) [regText rd, regText rs1, regText rs2]
  | .tglbitC w rd rs1 rs2 => regs (widthText w) [regText rd, regText rs1, regText rs2]
  | .tglbitU w rd rs1 rs2 => regs (widthText w) [regText rd, regText rs1, regText rs2]
  | .tglbitF w rd rs1 rs2 => regs (widthText w) [regText rd, regText rs1, regText rs2]
  | .rdbitsC w rd rs1 rs2 rs3 => regs (widthText w) [regText rd, regText rs1, regText rs2, regText rs3]
  | .rdbitsU w rd rs1 rs2 rs3 => regs (widthText w) [regText rd, regText rs1, regText rs2, regText rs3]
  | .rdbitsF w rd rs1 rs2 rs3 => regs (widthText w) [regText rd, regText rs1, regText rs2, regText rs3]
  | .wrbitsC w rd rs1 rs2 rs3 rs4 => regs (widthText w) [regText rd, regText rs1, regText rs2, regText rs3, regText rs4]
  | .wrbitsU w rd rs1 rs2 rs3 rs4 => regs (widthText w) [regText rd, regText rs1, regText rs2, regText rs3, regText rs4]
  | .wrbitsF w rd rs1 rs2 rs3 rs4 => regs (widthText w) [regText rd, regText rs1, regText rs2, regText rs3, regText rs4]
  | .bget rd rs1 => regs "" [regText rd, regText rs1]
  | .bset rs1 => regs "" [regText rs1]
  | .bclr rs1 => regs "" [regText rs1]
  | .bwr rs1 rs2 => regs "" [regText rs1, regText rs2]
  | .bwrbits rs1 rs2 rs3 => regs "" [regText rs1, regText rs2, regText rs3]
  | .vnew vd rs1 rs2 => regs "" [viewText vd, regText rs1, regText rs2]
  | .vnews vd rs1 rs2 rs3 => regs "" [viewText vd, regText rs1, regText rs2, regText rs3]
  | .vnewsl vd rs1 rs2 rs3 rs4 => regs "" [viewText vd, regText rs1, regText rs2, regText rs3, regText rs4]
  | .vget rd va rs1 => regs "" [regText rd, viewText va, regText rs1]
  | .vput va rs1 rs2 => regs "" [viewText va, regText rs1, regText rs2]
  | .vlen rd va => regs "" [regText rd, viewText va]
  | .vempty rd va => regs "" [regText rd, viewText va]
  | .vclr va => regs "" [viewText va]
  | .vset va => regs "" [viewText va]
  | .vfill va rs1 => regs "" [viewText va, regText rs1]
  | .veq rd va vb => regs "" [regText rd, viewText va, viewText vb]
  | .vne rd va vb => regs "" [regText rd, viewText va, viewText vb]
  | .vequals rd va vb => regs "" [regText rd, viewText va, viewText vb]
  | .vhash rd va => regs "" [regText rd, viewText va]
  | .chk3 rd rs1 => regs "" [regText rd, regText rs1]
  | .chk1 rd rs1 => regs "" [regText rd, regText rs1]
  | .chk2 rd rs1 => regs "" [regText rd, regText rs1]

/-- The source's own name of the operation of a command, which an assembler may accept (30_encoding.md R72). -/
def Instr.sourceName : Instr → String
  | .rdbitC _ _ _ _ => "read_bit"
  | .rdbitU _ _ _ _ => "read_bit"
  | .rdbitF _ _ _ _ => "read_bit"
  | .wrbitC _ _ _ _ _ => "write_bit"
  | .wrbitU _ _ _ _ _ => "write_bit"
  | .wrbitF _ _ _ _ _ => "write_bit"
  | .setbitC _ _ _ _ => "set_bit"
  | .setbitU _ _ _ _ => "set_bit"
  | .setbitF _ _ _ _ => "set_bit"
  | .clrbitC _ _ _ _ => "clear_bit"
  | .clrbitU _ _ _ _ => "clear_bit"
  | .clrbitF _ _ _ _ => "clear_bit"
  | .tglbitC _ _ _ _ => "toggle_bit"
  | .tglbitU _ _ _ _ => "toggle_bit"
  | .tglbitF _ _ _ _ => "toggle_bit"
  | .rdbitsC _ _ _ _ _ => "read_bits"
  | .rdbitsU _ _ _ _ _ => "read_bits"
  | .rdbitsF _ _ _ _ _ => "read_bits"
  | .wrbitsC _ _ _ _ _ _ => "write_bits"
  | .wrbitsU _ _ _ _ _ _ => "write_bits"
  | .wrbitsF _ _ _ _ _ _ => "write_bits"
  | .bget _ _ => "get"
  | .bset _ => "set"
  | .bclr _ => "clear"
  | .bwr _ _ => "write"
  | .bwrbits _ _ _ => "write_bits"
  | .vnew _ _ _ => "view construction: whole-buffer"
  | .vnews _ _ _ _ => "view construction: start-only"
  | .vnewsl _ _ _ _ _ => "view construction: start+length"
  | .vget _ _ _ => "view[i] get"
  | .vput _ _ _ => "view[i] set"
  | .vlen _ _ => "Length"
  | .vempty _ _ => "IsEmpty"
  | .vclr _ => "Clear"
  | .vset _ => "Set"
  | .vfill _ _ => "Fill(bool)"
  | .veq _ _ _ => "=="
  | .vne _ _ _ => "!="
  | .vequals _ _ _ => "Equals(Object)"
  | .vhash _ _ => "hash"
  | .chk3 _ _ => "3-bit index construction"
  | .chk1 _ _ => "1-bit value construction"
  | .chk2 _ _ => "2-bit value construction"

end Sys2Proof
end

