-- ==== Sys2Proof/Config.lean ====
section
/-! DEFINITION. The parameters of the unit (00_scope.md R7), the values the model names where the spec leaves one
open, and the free values (93_implementation_defined.md U1, U3), which have no body. -/

namespace Sys2Proof.Config

/-- `MEM_BYTES` (00_scope.md R7, 20_memory.md R40): the one open parameter, `0 <= MEM_BYTES <= 2^32`.
Every value of this type is a legal memory size; `Machine.State.memBytes` carries it. -/
abbrev MemSize := Fin 4294967297

/-- The memory size `State.reset` takes: the whole `2^32`-byte address space.
DESIGN CHOICE (log 1), unsafe: the spec leaves `MEM_BYTES` open, so no statement rests on this number. -/
def resetMemBytes : MemSize := ⟨4294967296, by decide⟩

/-- What every general register holds in `State.reset`.
DESIGN CHOICE (log 2), unsafe: 10_state.md R32 leaves `x[0..7]` unspecified after reset. -/
def resetRegister : BitVec 64 := 0

/-- What a byte of `MEM` that no entry lists reads as.
DESIGN CHOICE (log 3), unsafe: 10_state.md R32 leaves `MEM` unspecified before the host writes it. -/
def unlistedByte : BitVec 8 := 0

/-- `any_64()` (00_scope.md R11, 93_implementation_defined.md U1): the free 64-bit draw number `n`.
It has no body, so nothing can be proved of its value (log 4). -/
opaque anyValue : Nat → BitVec 64

/-- The byte addresses `VEQ` and `VNE` read, in order, at draw number `n`, before they are cut to the two
spans (43_bit_view.md R152, 93_implementation_defined.md U3).
It has no body: which bytes are read, how often and in what order is open (log 5). -/
opaque anyReads : Nat → List Nat

end Sys2Proof.Config
end

