-- ==== Sys2Proof/Machine/State.lean ====
section
/-! DEFINITION. The state of the unit (10_state.md R20) as plain data, the host's moves (70_reset_and_hazards.md R208),
the outcomes a step can stop with, and the state after reset (10_state.md R32). -/

namespace Sys2Proof.Machine

/-- The conditions a command can end with (60_exceptions.md R180). -/
inductive Condition where
  /-- Success. -/
  | ok
  /-- A checked index, count, view index, bounded value or `BWRBITS` field is out of range. -/
  | outOfRange
  /-- View construction whose slice or window does not fit. -/
  | malformedGeometry
  /-- Value equality or hashing of a view. -/
  | unsupported
  /-- A flat bit index whose byte lies outside `MEM`. -/
  | bufferIndex
  /-- A word that matches no row of the opcode table. -/
  | illegalCommand
  deriving DecidableEq, Repr

/-- A view descriptor (10_state.md R23): a window of `length` bits that starts `start` bits into the slice of
`nbytes` bytes of `MEM` at byte address `base`. -/
structure ViewDesc where
  base : BitVec 32
  nbytes : BitVec 33
  start : BitVec 3
  length : BitVec 36
  deriving DecidableEq, Repr

/-- The default (empty) view (10_state.md R25). -/
def ViewDesc.default : ViewDesc := { base := 0, nbytes := 0, start := 0, length := 0 }

/-- `MEM` (10_state.md R29, 20_memory.md R40) in canonical form: byte addresses strictly rising, no entry equal to
`Config.unlistedByte`. -/
abbrev Memory := List Host.Cell

/-- One access at the unit's memory port (20_memory.md R41): always one byte. -/
inductive Access where
  /-- `MemRead(addr, 1)`. -/
  | load (addr : Nat)
  /-- `MemWrite(addr, 1, b)`. -/
  | store (addr : Nat) (b : Byte)
  deriving DecidableEq, Repr

/-- What the unit last gave the host: nothing yet, the response to a command (60_exceptions.md R181), or the data of
a read at the register port or of `MEM` (10_state.md R31). -/
inductive Reply where
  | quiet
  | response (code : BitVec 4)
  | data (v : Xword)
  deriving DecidableEq, Repr

/-- A register-port number: 0 to 7 the general registers, 8 `STATUS` (10_state.md R21, R27). -/
abbrev Port := Fin 9

/-- One action of the host while the unit is idle (10_state.md R31, 70_reset_and_hazards.md R200, R208). -/
inductive HostAction where
  /-- Present a command word on the command port. -/
  | command (w : CmdWord)
  /-- Write a register at the register port. -/
  | regWrite (port : Port) (v : Xword)
  /-- Read a register at the register port. -/
  | regRead (port : Port)
  /-- Write a byte of `MEM`, which the host owns. -/
  | memWrite (addr : Nat) (b : Byte)
  /-- Read a byte of `MEM`. -/
  | memRead (addr : Nat)
  /-- Assert reset between two commands. -/
  | reset
  deriving DecidableEq, Repr

/-- Why the machine stops. -/
inductive Fault where
  /-- A command formed a byte address at or above `MEM_BYTES`, which the spec says the memory port never sees
  (20_memory.md R41). Raised by the view commands, and only in a state whose descriptor breaks 10_state.md R24, which
  no run reaches. DEDUCED (log 10). Safe. -/
  | noSuchByte (addr : Nat)
  deriving DecidableEq, Repr

/-- What the model does not accept. -/
inductive Refusal where
  /-- An instruction that has no meaning yet; no arm of `exec` answers it. Safe. -/
  | notModelled (mnemonic : String)
  /-- The host's list reads or writes a byte outside `MEM`: 10_state.md R31 lets it access "any byte of `MEM`" only.
  Raised by the host's memory actions. DESIGN CHOICE (log 10). Safe. -/
  | hostAddressOutsideMem (addr : Nat)
  deriving DecidableEq, Repr

/-- The state of the machine: the unit's architectural state (10_state.md R20: `x`, `v`, `status`, `mem`), the
parameter `MEM_BYTES`, the host's remaining actions, and the model's own bookkeeping. -/
structure State where
  /-- The general registers `x[0]` to `x[7]` (10_state.md R21). -/
  x : Vector Xword 8
  /-- The view descriptors `v[0]` to `v[3]` (10_state.md R23). -/
  v : Vector ViewDesc 4
  /-- `STATUS` (10_state.md R27): `code` in bits 3:0, the rest reads as 0. -/
  status : BitVec 32
  /-- `MEM` (10_state.md R29). -/
  mem : Memory
  /-- The parameter `MEM_BYTES` (00_scope.md R7); no step changes it (log 1). -/
  memBytes : Config.MemSize
  /-- The host's actions still to come, the next one first (70_reset_and_hazards.md R208; log 6). -/
  inputs : List HostAction
  /-- How many of the host's actions have been performed (10_state.md R22; log 6). -/
  index : Nat
  /-- What the unit last gave the host (60_exceptions.md R181, 10_state.md R31; log 7). -/
  reply : Reply
  /-- The memory-port accesses of the last command, oldest first (20_memory.md R46, R47; log 7). -/
  trace : List Access
  /-- How many free values have been taken (log 4). -/
  draws : Nat
  deriving DecidableEq, Repr

/-- The state after reset (10_state.md R32) for a given `MEM_BYTES`. The registers and `MEM` hold the values of logs 2
and 3, which the spec leaves unspecified. -/
def State.resetWith (memBytes : Config.MemSize) : State where
  x := Vector.replicate 8 Config.resetRegister
  v := Vector.replicate 4 ViewDesc.default
  status := 0
  mem := []
  memBytes := memBytes
  inputs := []
  index := 0
  reply := .quiet
  trace := []
  draws := 0

/-- The machine right after reset (10_state.md R32), with the memory size of log 1. -/
def State.reset : State := State.resetWith Config.resetMemBytes

end Sys2Proof.Machine
end

