-- ==== Sys2Proof/Machine/Flags.lean ====
section
/-! DEFINITION. The unit has no flags of any kind (10_state.md R28). What a command leaves of its outcome is its
condition code (60_exceptions.md R180), in `STATUS.code` and in the response. -/

namespace Sys2Proof.Machine

/-- The numeric code of a condition (60_exceptions.md R180). -/
def Condition.code : Condition → BitVec 4
  | .ok => 0
  | .outOfRange => 1
  | .malformedGeometry => 2
  | .unsupported => 3
  | .bufferIndex => 4
  | .illegalCommand => 5

/-- `STATUS` holding a code (10_state.md R27): bits 31:4 read as 0. -/
def statusWord (c : BitVec 4) : BitVec 32 := c.setWidth 32

/-- `STATUS.code`, bits 3:0 (10_state.md R27). -/
def State.statusCode (s : State) : BitVec 4 := s.status.setWidth 4

end Sys2Proof.Machine
end

