-- ==== Sys2Proof/Machine/Datapath.lean ====
section
/-! DEFINITION. The pure functions of 40_datapath_functions.md, over unbounded unsigned integers (00_scope.md R9). They
are meant on the argument ranges the rules state; every command checks first (R92). -/

namespace Sys2Proof.Machine

/-- `trunc_N(v) = v mod 2^N` (00_scope.md R9). -/
def trunc (n v : Nat) : Nat := v % 2 ^ n

/-- `~_N(a)`, the `N`-bit complement `(2^N - 1) - a` (00_scope.md R10). -/
def compl (n a : Nat) : Nat := 2 ^ n - 1 - a

/-- A Boolean as the value 0 or 1 (10_state.md R33). -/
def boolNat (b : Bool) : Nat := if b then 1 else 0

/-- The byte index and bit index of a flat bit index (R80). -/
def split (f : Nat) : Nat × Nat := (f >>> 3, f &&& 7)

/-- Single-bit mask (R81). -/
def bitmask (index : Nat) : Nat := 2 ^ index

/-- Field mask (R82), the power taken in the unbounded integers. -/
def fieldmask (count : Nat) : Nat := 2 ^ count - 1

/-- Fast index wrap (R83). -/
def fastidx (W index : Nat) : Nat := index &&& (W - 1)

/-- State normalisation (R84): any non-zero value counts as 1. -/
def norm (s : Nat) : Nat := if s ≠ 0 then 1 else 0

/-- `valid_index` (R92). -/
def validIndex (W index : Nat) : Bool := decide (index < W)

/-- `valid_field` (R92): `index < W` is required also when `count = 0` (90_conflicts.md C2). -/
def validField (W index count : Nat) : Bool := decide (index < W) && decide (count ≤ W - index)

/-- `read_bit` (R85). -/
def readBit (_W value index : Nat) : Nat := if value &&& bitmask index ≠ 0 then 1 else 0

/-- `write_bit` (R86). -/
def writeBit (W value index state : Nat) : Nat :=
  (value &&& compl W (bitmask index)) ||| (norm state <<< index)

/-- `set_bit` (R87). -/
def setBit (_W value index : Nat) : Nat := value ||| bitmask index

/-- `clear_bit` (R88). -/
def clearBit (W value index : Nat) : Nat := value &&& compl W (bitmask index)

/-- `toggle_bit` (R89). -/
def toggleBit (_W value index : Nat) : Nat := value ^^^ bitmask index

/-- `read_bits` (R90). -/
def readBits (_W value index count : Nat) : Nat := (value >>> index) &&& fieldmask count

/-- `write_bits` (R91): `bits` is truncated to `count` bits, never rejected. -/
def writeBits (W value index count bits : Nat) : Nat :=
  (value &&& compl W (fieldmask count <<< index)) ||| ((bits &&& fieldmask count) <<< index)

/-- Head mask (R96). -/
def headmask (s : Nat) : Nat := trunc 8 (0xFF <<< s)

/-- Tail mask (R97). -/
def tailmask (e : Nat) : Nat := if e = 0 then 0xFF else 2 ^ e - 1

/-- The whole-byte part of a fill plan: every offset from `first` to `last`, an empty range when `last < first`
(R98 step (b)). -/
def fullBytes (first last : Nat) : List (Nat × Nat) :=
  (List.range' first (last + 1 - first)).map fun k => (k, 0xFF)

/-- Fill plan (R98): byte offsets and masks that cover exactly the bits of a view, in ascending byte order. -/
def fillplan (start length : Nat) : List (Nat × Nat) :=
  if length = 0 then []
  else
    let fin := start + length
    let last := (fin - 1) >>> 3
    let e := fin &&& 7
    if last = 0 then [(0, headmask start &&& tailmask e)]
    else
      (if start ≠ 0 then [(0, headmask start)] else [])
        ++ fullBytes (if start ≠ 0 then 1 else 0) (if e = 0 then last else last - 1)
        ++ (if e ≠ 0 then [(last, tailmask e)] else [])

end Sys2Proof.Machine
end

