-- ==== Sys2Proof/Machine/Operands.lean ====
section
/-! DEFINITION. How a command reads its operands (10_state.md R33, 30_encoding.md R66): there are no immediates and one
addressing mode, a flat bit index in a register (42_buffer_bit_ops.md R130) or a view index (40_datapath_functions.md
R95). -/

namespace Sys2Proof.Machine

/-- The full 64-bit unsigned value of a register: every operand but a scalar value (10_state.md R33). -/
def State.operand (s : State) (r : Reg) : Nat := s.x[r].toNat

/-- A scalar value operand: the low `W` bits of a register (10_state.md R33). -/
def State.scalar (s : State) (w : Width) (r : Reg) : Nat := trunc w.bits (s.operand r)

/-- The index of a fast command (40_datapath_functions.md R83, 41_scalar_bit_ops.md R100). -/
def State.fastIndex (s : State) (w : Width) (r : Reg) : Nat := fastidx w.bits (s.operand r)

/-- The byte address of a flat bit index in a register (42_buffer_bit_ops.md R130). -/
def State.byteIndex (s : State) (r : Reg) : Nat := (split (s.operand r)).1

/-- The bit offset of a flat bit index in a register (42_buffer_bit_ops.md R130). -/
def State.bitIndex (s : State) (r : Reg) : Nat := (split (s.operand r)).2

/-- `viewflat(d, i) = d.base * 8 + d.start + i` (40_datapath_functions.md R95). -/
def viewflat (d : ViewDesc) (i : Nat) : Nat := d.base.toNat * 8 + d.start.toNat + i

/-- The address of the last byte of the span of a view that is not empty (20_memory.md R55). -/
def ViewDesc.lastByte (d : ViewDesc) : Nat := d.base.toNat + ((d.start.toNat + d.length.toNat - 1) >>> 3)

/-- The byte address lies in the span of the view (20_memory.md R55). -/
def ViewDesc.spans (d : ViewDesc) (a : Nat) : Bool :=
  d.length != 0 && decide (d.base.toNat ≤ a) && decide (a ≤ d.lastByte)

end Sys2Proof.Machine
end

