-- ==== Sys2Proof/Machine/Ops.lean ====
section
/-! DEFINITION. The named operations over memory and registers, the completion of a command, and raising a condition,
which is the unit's whole exception entry (60_exceptions.md R181, R182); there is no return from one (R186). -/

namespace Sys2Proof.Machine

/-- What a meaning, an action of the host or a step answers. -/
abbrev Result := Host.Outcome State Fault Refusal

/-! ### Memory -/

/-- The canonical form of `MEM`: addresses strictly rising, no entry equal to what an unlisted byte reads as. -/
abbrev Memory.wf (m : Memory) : Prop :=
  m.Pairwise (fun c d => c.1 < d.1) ∧ ∀ c ∈ m, c.2 ≠ Config.unlistedByte

/-- `MemRead(addr, 1)` (20_memory.md R41): the byte at an address. -/
def Memory.read : Memory → Nat → Byte
  | [], _ => Config.unlistedByte
  | (a', b') :: m, a => if a = a' then b' else Memory.read m a

/-- `MemWrite(addr, 1, b)` (20_memory.md R41, R51): replaces the byte at an address, nothing else; keeps the form. -/
def Memory.write : Memory → Nat → Byte → Memory
  | [], a, b => if b = Config.unlistedByte then [] else [(a, b)]
  | (a', b') :: m, a, b =>
    if a < a' then
      if b = Config.unlistedByte then (a', b') :: m else (a, b) :: (a', b') :: m
    else if a = a' then
      if b = Config.unlistedByte then m else (a, b) :: m
    else (a', b') :: Memory.write m a b

/-- `bit(f)` (43_bit_view.md R152): flat bit `f` is bit `f & 7` of the byte at `f >> 3` (20_memory.md R42). -/
def Memory.flatBit (m : Memory) (f : Nat) : Nat :=
  readBit 8 (m.read (split f).1).toNat (split f).2

/-- The value of the `n` bytes at address `a`, byte `a` in bits 7:0: the little-endian load by which a host makes a
scalar out of bytes of `MEM` (20_memory.md R43). The unit itself never does this. -/
def Memory.loadLittleEndian (m : Memory) (a : Nat) : Nat → Nat
  | 0 => 0
  | n + 1 => (m.read a).toNat + 256 * Memory.loadLittleEndian m (a + 1) n

/-! ### Updates of one piece of state -/

/-- `x[r] <- v` (00_scope.md R11); no register is hardwired (10_state.md R21). -/
def State.setX (s : State) (r : Reg) (v : Xword) : State := { s with x := s.x.set r v }

/-- `v[k] <- d` (00_scope.md R11): a descriptor is only ever replaced whole (10_state.md R26). -/
def State.setView (s : State) (k : ViewIdx) (d : ViewDesc) : State := { s with v := s.v.set k d }

/-- New contents of `MEM`. -/
def State.setMem (s : State) (m : Memory) : State := { s with mem := m }

/-- One more free value has been taken (93_implementation_defined.md U1: a fresh draw each time). -/
def State.drawn (s : State) : State := { s with draws := s.draws + 1 }

/-! ### Completion and conditions -/

/-- The end of a command (60_exceptions.md R181): `STATUS.code` and the response carry the condition's code; `accesses`
are the memory accesses the command made (20_memory.md R46). -/
def State.complete (s : State) (c : Condition) (accesses : List Access) : State :=
  { s with status := statusWord c.code, reply := .response c.code, trace := accesses }

/-- `raise <Condition>` (60_exceptions.md R181, R182): no write of the command's rule and no memory access has been
made, and nothing but the code is recorded. -/
def State.raise (s : State) (c : Condition) : State := s.complete c []

/-- A command that writes `x[rd]` with a result, zero-extended (10_state.md R33), and completes. -/
def State.finish (s : State) (rd : Reg) (result : Nat) : State :=
  (s.setX rd (BitVec.ofNat 64 result)).complete .ok []

/-- A command outside its precondition (41_scalar_bit_ops.md R100, 60_exceptions.md R187): `x[rd] <- any_64()`, a free
value, and it completes with `OK`. -/
def State.finishAny (s : State) (rd : Reg) : State :=
  ((s.setX rd (Config.anyValue s.draws)).drawn).complete .ok []

/-! ### Commands that touch one byte of memory -/

/-- Read the byte at `a` and write bit `bit` of it to `x[rd]` (42_buffer_bit_ops.md R131, 43_bit_view.md R144): one
read. An address outside `MEM` is no byte (20_memory.md R41). -/
def State.loadBit (s : State) (rd : Reg) (a bit : Nat) : Result :=
  if a < s.memBytes.val then
    .next ((s.setX rd (BitVec.ofNat 64 (readBit 8 (s.mem.read a).toNat bit))).complete .ok [.load a])
  else .fault (.noSuchByte a)

/-- Read the byte at `a`, apply `f`, write it back (20_memory.md R41): one read then one write of the same address, also
when the byte does not change (R46). -/
def State.updateByte (s : State) (a : Nat) (f : Nat → Nat) : Result :=
  if a < s.memBytes.val then
    .next ((s.setMem (s.mem.write a (BitVec.ofNat 8 (f (s.mem.read a).toNat)))).complete .ok
      [.load a, .store a (BitVec.ofNat 8 (f (s.mem.read a).toNat))])
  else .fault (.noSuchByte a)

/-! ### View construction -/

/-- The four numbers a construction gives (43_bit_view.md R140), before they are held in a descriptor. -/
structure Geometry where
  base : Nat
  nbytes : Nat
  start : Nat
  length : Nat
  deriving DecidableEq, Repr

/-- `construct` of 43_bit_view.md R140, in unbounded integers; `none` where it raises `MalformedGeometry`. -/
def construct (memBytes base nbytes start length : Nat) : Option Geometry :=
  if base + nbytes > memBytes then none
  else if start + length > nbytes * 8 then none
  else some
    { base := base + (start >>> 3), nbytes := nbytes - (start >>> 3), start := start &&& 7, length := length }

/-- A base that the 32-bit field of a descriptor holds (10_state.md R23). Construction can also give `2^32`, for an
empty slice at the end of a memory of `2^32` bytes, and the spec does not say what the field then holds. -/
def fitsBase (b : Nat) : Bool := decide (b < 2 ^ 32)

/-- The descriptor that holds a geometry. A base of `2^32` leaves a free value in the `base` field.
DESIGN CHOICE (log 8), safe: such a view is empty, and no command shows its base. -/
def State.descOf (s : State) (g : Geometry) : ViewDesc where
  base := if fitsBase g.base then BitVec.ofNat 32 g.base else (Config.anyValue s.draws).setWidth 32
  nbytes := BitVec.ofNat 33 g.nbytes
  start := BitVec.ofNat 3 g.start
  length := BitVec.ofNat 36 g.length

/-- The end of a construction command (43_bit_view.md R140): the new view in `v[vd]` and `OK`, or
`MalformedGeometry` and the old view. No memory access. -/
def State.putView (s : State) (vd : ViewIdx) : Option Geometry → State
  | none => s.raise .malformedGeometry
  | some g =>
    if fitsBase g.base then (s.setView vd (s.descOf g)).complete .ok []
    else ((s.setView vd (s.descOf g)).drawn).complete .ok []

/-! ### Bulk fill -/

/-- The memory port during a command: the contents of `MEM` and the accesses made so far. -/
structure Bus where
  mem : Memory
  trace : List Access
  deriving DecidableEq, Repr

/-- One read at the port (20_memory.md R41). -/
def Bus.load (p : Bus) (a : Nat) : Byte × Bus := (p.mem.read a, { p with trace := p.trace ++ [.load a] })

/-- One write at the port (20_memory.md R41). -/
def Bus.store (p : Bus) (a : Nat) (b : Byte) : Bus :=
  { mem := p.mem.write a b, trace := p.trace ++ [.store a b] }

/-- One entry `(k, m)` of a fill plan (43_bit_view.md R148): a fully covered byte is written without being read, a
partial one is read, changed under its mask and written. -/
def fillByte (base : Nat) (f : Bool) (p : Bus) (entry : Nat × Nat) : Bus :=
  let a := base + entry.1
  if entry.2 = 0xFF then p.store a (if f then 0xFF else 0x00)
  else
    let (b, p') := p.load a
    p'.store a (BitVec.ofNat 8 (if f then b.toNat ||| entry.2 else b.toNat &&& compl 8 entry.2))

/-- `fill(d, f)` of 43_bit_view.md R148, in ascending byte order. -/
def fillBus (d : ViewDesc) (f : Bool) (m : Memory) : Bus :=
  (fillplan d.start.toNat d.length.toNat).foldl (fillByte d.base.toNat f) { mem := m, trace := [] }

/-- Every byte the view touches is a byte of `MEM` (43_bit_view.md R159: always so under 10_state.md R24). -/
def State.spanInside (s : State) (d : ViewDesc) : Bool := d.length == 0 || decide (d.lastByte < s.memBytes.val)

/-- The shared body of `VCLR`, `VSET` and `VFILL` (43_bit_view.md R148). -/
def State.fill (s : State) (d : ViewDesc) (f : Bool) : Result :=
  if s.spanInside d then
    .next ((s.setMem (fillBus d f s.mem).mem).complete .ok (fillBus d f s.mem).trace)
  else .fault (.noSuchByte d.lastByte)

/-! ### Equality -/

/-- The enumeration of a view (43_bit_view.md R157): its bits in ascending index order. -/
def enumerate (m : Memory) (d : ViewDesc) : List Nat :=
  (List.range d.length.toNat).map fun i => m.flatBit (viewflat d i)

/-- `vieweq(a, b)` of 43_bit_view.md R152: equal length and every bit equal. -/
def vieweq (m : Memory) (a b : ViewDesc) : Bool :=
  a.length == b.length &&
    (List.range a.length.toNat).all fun i => m.flatBit (viewflat a i) == m.flatBit (viewflat b i)

/-- `VEQ` and `VNE` read memory at all (43_bit_view.md R152: no byte when the lengths differ or are 0). -/
def comparesBits (a b : ViewDesc) : Bool := a.length == b.length && a.length != 0

/-- The reads `VEQ` and `VNE` make at draw `n` (43_bit_view.md R152, 93_implementation_defined.md U3): any reads of bytes
of the two spans, in any order (log 5). -/
def eqReads (a b : ViewDesc) (n : Nat) : List Access :=
  ((Config.anyReads n).filter fun p => a.spans p || b.spans p).map .load

/-- The shared body of `VEQ` and `VNE` (43_bit_view.md R152 to R154): `x[rd]` gets `result` of the comparison. -/
def State.compareViews (s : State) (rd : Reg) (a b : ViewDesc) (result : Bool → Nat) : Result :=
  if comparesBits a b then
    if s.spanInside a && s.spanInside b then
      .next (((s.setX rd (BitVec.ofNat 64 (result (vieweq s.mem a b)))).drawn).complete .ok (eqReads a b s.draws))
    else .fault (.noSuchByte (max a.lastByte b.lastByte))
  else .next (s.finish rd (result (vieweq s.mem a b)))

end Sys2Proof.Machine
end

