-- ==== Sys2Proof/Machine/BitView.lean ====
section
/-! DEFINITION. The 14 Bit View commands (43_bit_view.md R140 to R159). -/

namespace Sys2Proof.Machine

/-- `VNEW`: construct the whole-buffer view (43_bit_view.md R141). -/
def execVnew (vd : ViewIdx) (rs1 rs2 : Reg) (s : State) : Result :=
  .next (s.putView vd (construct s.memBytes.val (s.operand rs1) (s.operand rs2) 0 (s.operand rs2 * 8)))

/-- `VNEWS`: construct the start-only view (43_bit_view.md R142). -/
def execVnews (vd : ViewIdx) (rs1 rs2 rs3 : Reg) (s : State) : Result :=
  if s.operand rs1 + s.operand rs2 > s.memBytes.val then .next (s.raise .malformedGeometry)
  else if s.operand rs3 > s.operand rs2 * 8 then .next (s.raise .malformedGeometry)
  else .next (s.putView vd (construct s.memBytes.val (s.operand rs1) (s.operand rs2) (s.operand rs3)
    (s.operand rs2 * 8 - s.operand rs3)))

/-- `VNEWSL`: construct the start and length view (43_bit_view.md R143). -/
def execVnewsl (vd : ViewIdx) (rs1 rs2 rs3 rs4 : Reg) (s : State) : Result :=
  .next (s.putView vd (construct s.memBytes.val (s.operand rs1) (s.operand rs2) (s.operand rs3) (s.operand rs4)))

/-- `VGET`: read view bit `i` (43_bit_view.md R144). -/
def execVget (rd : Reg) (va : ViewIdx) (rs1 : Reg) (s : State) : Result :=
  if s.operand rs1 ≥ s.v[va].length.toNat then .next (s.raise .outOfRange)
  else s.loadBit rd (split (viewflat s.v[va] (s.operand rs1))).1 (split (viewflat s.v[va] (s.operand rs1))).2

/-- `VPUT`: write view bit `i` with a state, normalised (43_bit_view.md R145). -/
def execVput (va : ViewIdx) (rs1 rs2 : Reg) (s : State) : Result :=
  if s.operand rs1 ≥ s.v[va].length.toNat then .next (s.raise .outOfRange)
  else s.updateByte (split (viewflat s.v[va] (s.operand rs1))).1 fun b =>
    writeBit 8 b (split (viewflat s.v[va] (s.operand rs1))).2 (s.operand rs2)

/-- `VLEN`: the length of a view (43_bit_view.md R146). -/
def execVlen (rd : Reg) (va : ViewIdx) (s : State) : Result :=
  .next (s.finish rd s.v[va].length.toNat)

/-- `VEMPTY`: whether a view is empty (43_bit_view.md R147). -/
def execVempty (rd : Reg) (va : ViewIdx) (s : State) : Result :=
  .next (s.finish rd (boolNat (s.v[va].length == 0 || s.v[va].nbytes == 0)))

/-- `VCLR`: clear every bit of a view (43_bit_view.md R149). -/
def execVclr (va : ViewIdx) (s : State) : Result := s.fill s.v[va] false

/-- `VSET`: set every bit of a view (43_bit_view.md R150). -/
def execVset (va : ViewIdx) (s : State) : Result := s.fill s.v[va] true

/-- `VFILL`: fill a view with a state, normalised (43_bit_view.md R151). -/
def execVfill (va : ViewIdx) (rs1 : Reg) (s : State) : Result :=
  s.fill s.v[va] (norm (s.operand rs1) == 1)

/-- `VEQ`: whether two views are equal (43_bit_view.md R153). -/
def execVeq (rd : Reg) (va vb : ViewIdx) (s : State) : Result :=
  s.compareViews rd s.v[va] s.v[vb] boolNat

/-- `VNE`: whether two views differ (43_bit_view.md R154). -/
def execVne (rd : Reg) (va vb : ViewIdx) (s : State) : Result :=
  s.compareViews rd s.v[va] s.v[vb] fun equal => boolNat (!equal)

/-- `VEQUALS`: always raises `Unsupported`; its operands are ignored (43_bit_view.md R155). -/
def execVequals (_rd : Reg) (_va _vb : ViewIdx) (s : State) : Result := .next (s.raise .unsupported)

/-- `VHASH`: always raises `Unsupported`; its operands are ignored (43_bit_view.md R156). -/
def execVhash (_rd : Reg) (_va : ViewIdx) (s : State) : Result := .next (s.raise .unsupported)

end Sys2Proof.Machine
end

