-- ==== Sys2Proof/Machine/Bounded.lean ====
section
/-! DEFINITION. The three Bounded Scalar Types commands (44_bounded_scalar.md R170 to R174). -/

namespace Sys2Proof.Machine

/-- The shared body: copy a raw value within an inclusive bound, raise `OutOfRange` otherwise
(44_bounded_scalar.md R170). -/
def State.checkBound (s : State) (bound : Nat) (rd rs1 : Reg) : State :=
  if s.operand rs1 > bound then s.raise .outOfRange else s.finish rd (s.operand rs1)

/-- `CHK3`: construct a 3-bit index (44_bounded_scalar.md R171). -/
def execChk3 (rd rs1 : Reg) (s : State) : Result := .next (s.checkBound 7 rd rs1)

/-- `CHK1`: construct a 1-bit value (44_bounded_scalar.md R172). -/
def execChk1 (rd rs1 : Reg) (s : State) : Result := .next (s.checkBound 1 rd rs1)

/-- `CHK2`: construct a 2-bit value (44_bounded_scalar.md R173). -/
def execChk2 (rd rs1 : Reg) (s : State) : Result := .next (s.checkBound 3 rd rs1)

end Sys2Proof.Machine
end

