-- ==== Sys2Proof/Machine/Buffer.lean ====
section
/-! DEFINITION. The five Byte-Buffer Bit Ops commands (42_buffer_bit_ops.md R130 to R135). The buffer is the whole of
`MEM`; a byte index at or above `MEM_BYTES` raises `BufferIndex` with no access (20_memory.md R45). -/

namespace Sys2Proof.Machine

/-- `BGET`: read one bit of the buffer (42_buffer_bit_ops.md R131). -/
def execBget (rd rs1 : Reg) (s : State) : Result :=
  if s.byteIndex rs1 ≥ s.memBytes.val then .next (s.raise .bufferIndex)
  else s.loadBit rd (s.byteIndex rs1) (s.bitIndex rs1)

/-- `BSET`: set one bit of the buffer (42_buffer_bit_ops.md R132). -/
def execBset (rs1 : Reg) (s : State) : Result :=
  if s.byteIndex rs1 ≥ s.memBytes.val then .next (s.raise .bufferIndex)
  else s.updateByte (s.byteIndex rs1) fun b => setBit 8 b (s.bitIndex rs1)

/-- `BCLR`: clear one bit of the buffer (42_buffer_bit_ops.md R133). -/
def execBclr (rs1 : Reg) (s : State) : Result :=
  if s.byteIndex rs1 ≥ s.memBytes.val then .next (s.raise .bufferIndex)
  else s.updateByte (s.byteIndex rs1) fun b => clearBit 8 b (s.bitIndex rs1)

/-- `BWR`: write one bit of the buffer with a state, normalised (42_buffer_bit_ops.md R134). -/
def execBwr (rs1 rs2 : Reg) (s : State) : Result :=
  if s.byteIndex rs1 ≥ s.memBytes.val then .next (s.raise .bufferIndex)
  else s.updateByte (s.byteIndex rs1) fun b => writeBit 8 b (s.bitIndex rs1) (s.operand rs2)

/-- `BWRBITS`: write a field inside one byte of the buffer (42_buffer_bit_ops.md R135). A field that crosses the byte
raises `OutOfRange`, before the byte bound is looked at (60_exceptions.md R184). -/
def execBwrbits (rs1 rs2 rs3 : Reg) (s : State) : Result :=
  if s.operand rs3 > 8 - s.bitIndex rs1 then .next (s.raise .outOfRange)
  else if s.byteIndex rs1 ≥ s.memBytes.val then .next (s.raise .bufferIndex)
  else s.updateByte (s.byteIndex rs1) fun b =>
    writeBits 8 b (s.bitIndex rs1) (s.operand rs3) (s.operand rs2)

end Sys2Proof.Machine
end

