-- ==== Sys2Proof/Machine/Scalar.lean ====
section
/-! DEFINITION. The 21 Scalar Bit Ops commands (41_scalar_bit_ops.md R100 to R121). The value is the low `W` bits of
`x[rs1]`, the result is written zero-extended; no command of this file touches memory or a descriptor. -/

namespace Sys2Proof.Machine

/-- `RDBIT.C`: checked single-bit read (41_scalar_bit_ops.md R101). -/
def execRdbitC (w : Width) (rd rs1 rs2 : Reg) (s : State) : Result :=
  if validIndex w.bits (s.operand rs2) then .next (s.finish rd (readBit w.bits (s.scalar w rs1) (s.operand rs2)))
  else .next (s.raise .outOfRange)

/-- `RDBIT.U`: unchecked single-bit read (41_scalar_bit_ops.md R102): a free value where the check would fail. -/
def execRdbitU (w : Width) (rd rs1 rs2 : Reg) (s : State) : Result :=
  if validIndex w.bits (s.operand rs2) then .next (s.finish rd (readBit w.bits (s.scalar w rs1) (s.operand rs2)))
  else .next (s.finishAny rd)

/-- `RDBIT.F`: fast single-bit read (41_scalar_bit_ops.md R103): the index wraps modulo `W`, so it is always valid. -/
def execRdbitF (w : Width) (rd rs1 rs2 : Reg) (s : State) : Result :=
  .next (s.finish rd (readBit w.bits (s.scalar w rs1) (s.fastIndex w rs2)))

/-- `WRBIT.C`: checked single-bit write (41_scalar_bit_ops.md R104). -/
def execWrbitC (w : Width) (rd rs1 rs2 rs3 : Reg) (s : State) : Result :=
  if validIndex w.bits (s.operand rs2) then .next (s.finish rd (writeBit w.bits (s.scalar w rs1) (s.operand rs2) (s.operand rs3)))
  else .next (s.raise .outOfRange)

/-- `WRBIT.U`: unchecked single-bit write (41_scalar_bit_ops.md R105): a free value where the check would fail. -/
def execWrbitU (w : Width) (rd rs1 rs2 rs3 : Reg) (s : State) : Result :=
  if validIndex w.bits (s.operand rs2) then .next (s.finish rd (writeBit w.bits (s.scalar w rs1) (s.operand rs2) (s.operand rs3)))
  else .next (s.finishAny rd)

/-- `WRBIT.F`: fast single-bit write (41_scalar_bit_ops.md R106): the index wraps modulo `W`, so it is always valid. -/
def execWrbitF (w : Width) (rd rs1 rs2 rs3 : Reg) (s : State) : Result :=
  .next (s.finish rd (writeBit w.bits (s.scalar w rs1) (s.fastIndex w rs2) (s.operand rs3)))

/-- `SETBIT.C`: checked set (41_scalar_bit_ops.md R107). -/
def execSetbitC (w : Width) (rd rs1 rs2 : Reg) (s : State) : Result :=
  if validIndex w.bits (s.operand rs2) then .next (s.finish rd (setBit w.bits (s.scalar w rs1) (s.operand rs2)))
  else .next (s.raise .outOfRange)

/-- `SETBIT.U`: unchecked set (41_scalar_bit_ops.md R108): a free value where the check would fail. -/
def execSetbitU (w : Width) (rd rs1 rs2 : Reg) (s : State) : Result :=
  if validIndex w.bits (s.operand rs2) then .next (s.finish rd (setBit w.bits (s.scalar w rs1) (s.operand rs2)))
  else .next (s.finishAny rd)

/-- `SETBIT.F`: fast set (41_scalar_bit_ops.md R109): the index wraps modulo `W`, so it is always valid. -/
def execSetbitF (w : Width) (rd rs1 rs2 : Reg) (s : State) : Result :=
  .next (s.finish rd (setBit w.bits (s.scalar w rs1) (s.fastIndex w rs2)))

/-- `CLRBIT.C`: checked clear (41_scalar_bit_ops.md R110). -/
def execClrbitC (w : Width) (rd rs1 rs2 : Reg) (s : State) : Result :=
  if validIndex w.bits (s.operand rs2) then .next (s.finish rd (clearBit w.bits (s.scalar w rs1) (s.operand rs2)))
  else .next (s.raise .outOfRange)

/-- `CLRBIT.U`: unchecked clear (41_scalar_bit_ops.md R111): a free value where the check would fail. -/
def execClrbitU (w : Width) (rd rs1 rs2 : Reg) (s : State) : Result :=
  if validIndex w.bits (s.operand rs2) then .next (s.finish rd (clearBit w.bits (s.scalar w rs1) (s.operand rs2)))
  else .next (s.finishAny rd)

/-- `CLRBIT.F`: fast clear (41_scalar_bit_ops.md R112): the index wraps modulo `W`, so it is always valid. -/
def execClrbitF (w : Width) (rd rs1 rs2 : Reg) (s : State) : Result :=
  .next (s.finish rd (clearBit w.bits (s.scalar w rs1) (s.fastIndex w rs2)))

/-- `TGLBIT.C`: checked toggle (41_scalar_bit_ops.md R113). -/
def execTglbitC (w : Width) (rd rs1 rs2 : Reg) (s : State) : Result :=
  if validIndex w.bits (s.operand rs2) then .next (s.finish rd (toggleBit w.bits (s.scalar w rs1) (s.operand rs2)))
  else .next (s.raise .outOfRange)

/-- `TGLBIT.U`: unchecked toggle (41_scalar_bit_ops.md R114): a free value where the check would fail. -/
def execTglbitU (w : Width) (rd rs1 rs2 : Reg) (s : State) : Result :=
  if validIndex w.bits (s.operand rs2) then .next (s.finish rd (toggleBit w.bits (s.scalar w rs1) (s.operand rs2)))
  else .next (s.finishAny rd)

/-- `TGLBIT.F`: fast toggle (41_scalar_bit_ops.md R115): the index wraps modulo `W`, so it is always valid. -/
def execTglbitF (w : Width) (rd rs1 rs2 : Reg) (s : State) : Result :=
  .next (s.finish rd (toggleBit w.bits (s.scalar w rs1) (s.fastIndex w rs2)))

/-- `RDBITS.C`: checked field read (41_scalar_bit_ops.md R116). -/
def execRdbitsC (w : Width) (rd rs1 rs2 rs3 : Reg) (s : State) : Result :=
  if validField w.bits (s.operand rs2) (s.operand rs3) then .next (s.finish rd (readBits w.bits (s.scalar w rs1) (s.operand rs2) (s.operand rs3)))
  else .next (s.raise .outOfRange)

/-- `RDBITS.U`: unchecked field read (41_scalar_bit_ops.md R117): a free value where the check would fail. -/
def execRdbitsU (w : Width) (rd rs1 rs2 rs3 : Reg) (s : State) : Result :=
  if validField w.bits (s.operand rs2) (s.operand rs3) then .next (s.finish rd (readBits w.bits (s.scalar w rs1) (s.operand rs2) (s.operand rs3)))
  else .next (s.finishAny rd)

/-- `RDBITS.F`: fast field read (41_scalar_bit_ops.md R118): only the index wraps, a count that does not fit above the
wrapped index gives a free value. -/
def execRdbitsF (w : Width) (rd rs1 rs2 rs3 : Reg) (s : State) : Result :=
  if s.operand rs3 ≤ w.bits - s.fastIndex w rs2 then .next (s.finish rd (readBits w.bits (s.scalar w rs1) (s.fastIndex w rs2) (s.operand rs3)))
  else .next (s.finishAny rd)

/-- `WRBITS.C`: checked field write (41_scalar_bit_ops.md R119). -/
def execWrbitsC (w : Width) (rd rs1 rs2 rs3 rs4 : Reg) (s : State) : Result :=
  if validField w.bits (s.operand rs2) (s.operand rs3) then .next (s.finish rd (writeBits w.bits (s.scalar w rs1) (s.operand rs2) (s.operand rs3) (s.operand rs4)))
  else .next (s.raise .outOfRange)

/-- `WRBITS.U`: unchecked field write (41_scalar_bit_ops.md R120): a free value where the check would fail. -/
def execWrbitsU (w : Width) (rd rs1 rs2 rs3 rs4 : Reg) (s : State) : Result :=
  if validField w.bits (s.operand rs2) (s.operand rs3) then .next (s.finish rd (writeBits w.bits (s.scalar w rs1) (s.operand rs2) (s.operand rs3) (s.operand rs4)))
  else .next (s.finishAny rd)

/-- `WRBITS.F`: fast field write (41_scalar_bit_ops.md R121): only the index wraps, a count that does not fit above the
wrapped index gives a free value. -/
def execWrbitsF (w : Width) (rd rs1 rs2 rs3 rs4 : Reg) (s : State) : Result :=
  if s.operand rs3 ≤ w.bits - s.fastIndex w rs2 then .next (s.finish rd (writeBits w.bits (s.scalar w rs1) (s.fastIndex w rs2) (s.operand rs3) (s.operand rs4)))
  else .next (s.finishAny rd)

end Sys2Proof.Machine
end

