-- ==== Sys2Proof/Machine/Dispatch.lean ====
section
/-! DEFINITION. One arm per command (30_encoding.md R67): each calls its own meaning. -/

namespace Sys2Proof.Machine

def exec (i : Instr) (s : State) : Host.Outcome State Fault Refusal :=
  match i with
  | .rdbitC w rd rs1 rs2 => Sys2Proof.Machine.execRdbitC w rd rs1 rs2 s
  | .rdbitU w rd rs1 rs2 => Sys2Proof.Machine.execRdbitU w rd rs1 rs2 s
  | .rdbitF w rd rs1 rs2 => Sys2Proof.Machine.execRdbitF w rd rs1 rs2 s
  | .wrbitC w rd rs1 rs2 rs3 => Sys2Proof.Machine.execWrbitC w rd rs1 rs2 rs3 s
  | .wrbitU w rd rs1 rs2 rs3 => Sys2Proof.Machine.execWrbitU w rd rs1 rs2 rs3 s
  | .wrbitF w rd rs1 rs2 rs3 => Sys2Proof.Machine.execWrbitF w rd rs1 rs2 rs3 s
  | .setbitC w rd rs1 rs2 => Sys2Proof.Machine.execSetbitC w rd rs1 rs2 s
  | .setbitU w rd rs1 rs2 => Sys2Proof.Machine.execSetbitU w rd rs1 rs2 s
  | .setbitF w rd rs1 rs2 => Sys2Proof.Machine.execSetbitF w rd rs1 rs2 s
  | .clrbitC w rd rs1 rs2 => Sys2Proof.Machine.execClrbitC w rd rs1 rs2 s
  | .clrbitU w rd rs1 rs2 => Sys2Proof.Machine.execClrbitU w rd rs1 rs2 s
  | .clrbitF w rd rs1 rs2 => Sys2Proof.Machine.execClrbitF w rd rs1 rs2 s
  | .tglbitC w rd rs1 rs2 => Sys2Proof.Machine.execTglbitC w rd rs1 rs2 s
  | .tglbitU w rd rs1 rs2 => Sys2Proof.Machine.execTglbitU w rd rs1 rs2 s
  | .tglbitF w rd rs1 rs2 => Sys2Proof.Machine.execTglbitF w rd rs1 rs2 s
  | .rdbitsC w rd rs1 rs2 rs3 => Sys2Proof.Machine.execRdbitsC w rd rs1 rs2 rs3 s
  | .rdbitsU w rd rs1 rs2 rs3 => Sys2Proof.Machine.execRdbitsU w rd rs1 rs2 rs3 s
  | .rdbitsF w rd rs1 rs2 rs3 => Sys2Proof.Machine.execRdbitsF w rd rs1 rs2 rs3 s
  | .wrbitsC w rd rs1 rs2 rs3 rs4 => Sys2Proof.Machine.execWrbitsC w rd rs1 rs2 rs3 rs4 s
  | .wrbitsU w rd rs1 rs2 rs3 rs4 => Sys2Proof.Machine.execWrbitsU w rd rs1 rs2 rs3 rs4 s
  | .wrbitsF w rd rs1 rs2 rs3 rs4 => Sys2Proof.Machine.execWrbitsF w rd rs1 rs2 rs3 rs4 s
  | .bget rd rs1 => Sys2Proof.Machine.execBget rd rs1 s
  | .bset rs1 => Sys2Proof.Machine.execBset rs1 s
  | .bclr rs1 => Sys2Proof.Machine.execBclr rs1 s
  | .bwr rs1 rs2 => Sys2Proof.Machine.execBwr rs1 rs2 s
  | .bwrbits rs1 rs2 rs3 => Sys2Proof.Machine.execBwrbits rs1 rs2 rs3 s
  | .vnew vd rs1 rs2 => Sys2Proof.Machine.execVnew vd rs1 rs2 s
  | .vnews vd rs1 rs2 rs3 => Sys2Proof.Machine.execVnews vd rs1 rs2 rs3 s
  | .vnewsl vd rs1 rs2 rs3 rs4 => Sys2Proof.Machine.execVnewsl vd rs1 rs2 rs3 rs4 s
  | .vget rd va rs1 => Sys2Proof.Machine.execVget rd va rs1 s
  | .vput va rs1 rs2 => Sys2Proof.Machine.execVput va rs1 rs2 s
  | .vlen rd va => Sys2Proof.Machine.execVlen rd va s
  | .vempty rd va => Sys2Proof.Machine.execVempty rd va s
  | .vclr va => Sys2Proof.Machine.execVclr va s
  | .vset va => Sys2Proof.Machine.execVset va s
  | .vfill va rs1 => Sys2Proof.Machine.execVfill va rs1 s
  | .veq rd va vb => Sys2Proof.Machine.execVeq rd va vb s
  | .vne rd va vb => Sys2Proof.Machine.execVne rd va vb s
  | .vequals rd va vb => Sys2Proof.Machine.execVequals rd va vb s
  | .vhash rd va => Sys2Proof.Machine.execVhash rd va s
  | .chk3 rd rs1 => Sys2Proof.Machine.execChk3 rd rs1 s
  | .chk1 rd rs1 => Sys2Proof.Machine.execChk1 rd rs1 s
  | .chk2 rd rs1 => Sys2Proof.Machine.execChk2 rd rs1 s

end Sys2Proof.Machine
end

