-- ==== Sys2Proof/Machine/HostPort.lean ====
section
/-! DEFINITION. The host's actions (10_state.md R31, 70_reset_and_hazards.md R200, R208): a command, the register port, the
bytes of `MEM`, reset. -/

namespace Sys2Proof.Machine

/-- A word presented on the command port: the command it decodes to, or the condition `IllegalCommand`
(30_encoding.md R68, R73, 60_exceptions.md R180). -/
def runCommand (w : CmdWord) (s : State) : Result :=
  match decode w with
  | .command i => exec i s
  | .illegal => .next (s.raise .illegalCommand)

/-- What the register port shows at a port number (10_state.md R27, R31): a general register, or `STATUS` at port 8. -/
def State.portRead (s : State) (port : Port) : Xword :=
  if h : port.val < 8 then s.x[port.val] else s.status.setWidth 64

/-- A host write at the register port (10_state.md R27, R31): a general register; a write to `STATUS` is ignored. -/
def State.portWrite (s : State) (port : Port) (v : Xword) : State :=
  if h : port.val < 8 then s.setX ⟨port.val, h⟩ v else s

/-- What the unit shows on its ports after a host read. -/
def State.answer (s : State) (v : Xword) : State := { s with reply := .data v }

/-- Reset between two commands (70_reset_and_hazards.md R200, 10_state.md R32): every `x[i]` an unspecified value, a free
one each time; every `v[k]` the default view; `STATUS` 0; `MEM` untouched; the unit idle. -/
def State.assertReset (s : State) : State :=
  { s with
    x := Vector.ofFn fun i => Config.anyValue (s.draws + i.val)
    v := Vector.replicate 4 ViewDesc.default
    status := 0
    reply := .quiet
    trace := []
    draws := s.draws + 8 }

/-- One action of the host, performed while the unit is idle (10_state.md R31). -/
def perform : HostAction → State → Result
  | .command w, s => runCommand w s
  | .regWrite port v, s => .next (s.portWrite port v)
  | .regRead port, s => .next (s.answer (s.portRead port))
  | .memWrite a b, s =>
    if a < s.memBytes.val then .next (s.setMem (s.mem.write a b)) else .refused (.hostAddressOutsideMem a)
  | .memRead a, s =>
    if a < s.memBytes.val then .next (s.answer ((s.mem.read a).setWidth 64)) else .refused (.hostAddressOutsideMem a)
  | .reset, s => .next s.assertReset

/-- The host's list moves on by one action (10_state.md R22: the index "increases by exactly 1 after every command"). -/
def State.advance (s : State) (rest : List HostAction) : State := { s with inputs := rest, index := s.index + 1 }

end Sys2Proof.Machine
end

