-- ==== Sys2Proof/Machine/Step.lean ====
section
/-! DEFINITION. One step: the host's next action (70_reset_and_hazards.md R208). The unit has no program counter and
fetches nothing (10_state.md R22, 20_memory.md R52). -/

namespace Sys2Proof.Machine

/-- One step of a run (10_state.md R22, 70_reset_and_hazards.md R208). With no action left the run is over, and the idle
unit keeps all its state (60_exceptions.md R190).
DESIGN CHOICE (log 6), safe: that is shown as a step that changes nothing. -/
def step (s : State) : Host.Outcome State Fault Refusal :=
  match s.inputs with
  | [] => .next s
  | a :: rest =>
    match perform a s with
    | .next t => .next (t.advance rest)
    | .fault r => .fault r
    | .refused r => .refused r

/-- `s` with the command word in the low `nbits` bits of `w` as the next action of the host: the unit fetches nothing,
so this stands for the host's presenting that command (log 6). -/
def State.withFetchWord (s : State) (nbits w : Nat) : State :=
  { s with inputs := .command (BitVec.ofNat 32 (w % 2 ^ nbits)) :: s.inputs }

end Sys2Proof.Machine
end

