-- ==== Sys2Proof/Safety.lean ====
section
/-! DEFINITION. The invariant of the unit's state (10_state.md R24, R27) and what a safe run is. -/

namespace Sys2Proof.Machine

/-- The invariant of a descriptor for a memory of `memBytes` bytes (10_state.md R24): (b) and (c); (a) `start < 8` is the
width of the field. -/
abbrev ViewDesc.ok (memBytes : Nat) (d : ViewDesc) : Prop :=
  d.start.toNat + d.length.toNat ≤ d.nbytes.toNat * 8 ∧ d.base.toNat + d.nbytes.toNat ≤ memBytes

/-- What holds of every state a run reaches. -/
structure State.Inv (s : State) : Prop where
  /-- Every descriptor is a view inside `MEM` (10_state.md R24). -/
  views : ∀ k : ViewIdx, s.v[k].ok s.memBytes.val
  /-- `STATUS` holds a code 0 to 5 and reads 0 in bits 31:4 (10_state.md R27). -/
  status : s.status.toNat ≤ 5
  /-- `MEM` is in canonical form. -/
  canonical : s.mem.wf
  /-- `MEM` has no byte at or above `MEM_BYTES` (20_memory.md R40). -/
  inside : ∀ c ∈ s.mem, c.1 < s.memBytes.val

/-- The host's list asks only for bytes of `MEM` (10_state.md R31). -/
abbrev HostAction.ok (memBytes : Nat) : HostAction → Prop
  | .memWrite a _ => a < memBytes
  | .memRead a => a < memBytes
  | _ => True

/-- A run of any length never stops (60_exceptions.md R181: a failing command is followed by the next one). -/
def State.NeverStops (s : State) : Prop := ∀ k : Nat, ∃ t, Sys2Proof.core.run k s = .next t

end Sys2Proof.Machine
end

