-- ==== Sys2Proof/Certificates/Slice0/Obligations.lean ====
section
/-! DEFINITION. The statements about the model, and the words they are said in. -/

open Sys2Proof Sys2Proof.Machine

namespace Sys2Proof.Claims

/-! ### What a command leaves unchanged -/

/-- `t` follows `s` by a command that completed with `OK`, wrote no register but `x[rd]`, no descriptor and no byte of
`MEM`, and made the given memory accesses. -/
structure RegisterOnly (s t : State) (rd : Reg) (accesses : List Access) : Prop where
  otherRegisters : ∀ r : Reg, r ≠ rd → t.x[r] = s.x[r]
  views : t.v = s.v
  memory : ∀ a : Nat, t.mem.read a = s.mem.read a
  status : t.status = 0
  response : t.reply = .response 0
  accesses : t.trace = accesses
  others : t.memBytes = s.memBytes ∧ t.inputs = s.inputs ∧ t.index = s.index

/-- `t` follows `s` by a command that raised the condition with this code: nothing but the code is recorded and no memory
access was made (60_exceptions.md R181, R182). -/
structure Raises (s t : State) (code : BitVec 4) : Prop where
  registers : t.x = s.x
  views : t.v = s.v
  memory : ∀ a : Nat, t.mem.read a = s.mem.read a
  status : t.status = code.setWidth 32
  response : t.reply = .response code
  accesses : t.trace = []
  others : t.memBytes = s.memBytes ∧ t.inputs = s.inputs ∧ t.index = s.index

/-- `t` follows `s` by a command that completed with `OK`, wrote no register and no descriptor, and left every byte of
`MEM` but the one at `addr` as it was; it read that byte once and then wrote it once. -/
structure StoresOnly (s t : State) (addr : Nat) : Prop where
  registers : t.x = s.x
  views : t.v = s.v
  otherBytes : ∀ a : Nat, a ≠ addr → t.mem.read a = s.mem.read a
  status : t.status = 0
  response : t.reply = .response 0
  accesses : t.trace = [.load addr, .store addr (t.mem.read addr)]
  others : t.memBytes = s.memBytes ∧ t.inputs = s.inputs ∧ t.index = s.index

/-- `t` follows `s` by a command that completed with `OK` and wrote descriptor `vd` and nothing else. -/
structure ViewOnly (s t : State) (vd : ViewIdx) : Prop where
  registers : t.x = s.x
  otherViews : ∀ k : ViewIdx, k ≠ vd → t.v[k] = s.v[k]
  memory : ∀ a : Nat, t.mem.read a = s.mem.read a
  status : t.status = 0
  response : t.reply = .response 0
  accesses : t.trace = []
  others : t.memBytes = s.memBytes ∧ t.inputs = s.inputs ∧ t.index = s.index

/-- The command answers a next state, and that state has the property. -/
def Completes (i : Instr) (s : State) (P : State → Prop) : Prop := ∃ t, exec i s = .next t ∧ P t

/-- A descriptor that holds these four numbers; the base as far as its 32-bit field holds it (log 8). -/
def ViewIs (d : ViewDesc) (base nbytes start length : Nat) : Prop :=
  (base < 2 ^ 32 → d.base.toNat = base) ∧ d.nbytes.toNat = nbytes ∧ d.start.toNat = start ∧ d.length.toNat = length

/-- What the fields of a command's word hold (30_encoding.md R60): a field left out is zero (R65), and `width` is the
scalar width that `wsel` selects, of the commands that have one. -/
structure WordFields where
  op : Nat
  var : Nat := 0
  width : Option Width := none
  rd : Reg := 0
  rs1 : Reg := 0
  rs2 : Reg := 0
  rs3 : Reg := 0
  rs4 : Reg := 0
  va : ViewIdx := 0
  vb : ViewIdx := 0

/-- The word of the command holds these numbers at the bit positions of R60, and nothing else: the opcode and the variant of
R67, each operand in the field of its role (R67, column "used fields (role)"), `W = 8 << wsel` (R62) or `wsel` zero, and
the `zero` field zero (30_encoding.md R60, R61, R62, R63, R65, R67). -/
def EncodedAs (i : Instr) (f : WordFields) : Prop :=
  bitsOf (encode i) 31 26 = f.op ∧ bitsOf (encode i) 25 24 = f.var ∧
  (match f.width with
    | some w => 8 <<< bitsOf (encode i) 23 22 = w.bits
    | none => bitsOf (encode i) 23 22 = 0) ∧
  bitsOf (encode i) 21 19 = f.rd.val ∧ bitsOf (encode i) 18 16 = f.rs1.val ∧ bitsOf (encode i) 15 13 = f.rs2.val ∧
  bitsOf (encode i) 12 10 = f.rs3.val ∧ bitsOf (encode i) 9 7 = f.rs4.val ∧
  bitsOf (encode i) 6 5 = f.va.val ∧ bitsOf (encode i) 4 3 = f.vb.val ∧ bitsOf (encode i) 2 0 = 0

/-! ### The three postures of a scalar command (41_scalar_bit_ops.md R100) -/

/-- A single-bit command in its three postures, whose words differ in `var` alone: checked and unchecked with a valid
index, the condition and the unspecified value without one, and fast with the index modulo `W`. -/
def BitCommand (f : WordFields) (checked unchecked fast : Instr) (w : Width) (rd rs2 : Reg) (s : State)
    (result : Nat → State → Prop) : Prop :=
  (EncodedAs checked { f with var := 0 } ∧ EncodedAs unchecked { f with var := 1 } ∧
    EncodedAs fast { f with var := 2 }) ∧
  (s.x[rs2].toNat < w.bits →
    Completes checked s (fun t => RegisterOnly s t rd [] ∧ result s.x[rs2].toNat t) ∧
    Completes unchecked s (fun t => RegisterOnly s t rd [] ∧ result s.x[rs2].toNat t)) ∧
  (w.bits ≤ s.x[rs2].toNat →
    Completes checked s (fun t => Raises s t 1) ∧ Completes unchecked s (fun t => RegisterOnly s t rd [])) ∧
  Completes fast s (fun t => RegisterOnly s t rd [] ∧ result (s.x[rs2].toNat % w.bits) t)

/-- A field command in its three postures, whose words differ in `var` alone: for the fast one only the index wraps, and
a count that does not fit above the wrapped index gives an unspecified value. -/
def FieldCommand (f : WordFields) (checked unchecked fast : Instr) (w : Width) (rd rs2 rs3 : Reg) (s : State)
    (result : Nat → State → Prop) : Prop :=
  (EncodedAs checked { f with var := 0 } ∧ EncodedAs unchecked { f with var := 1 } ∧
    EncodedAs fast { f with var := 2 }) ∧
  (s.x[rs2].toNat < w.bits ∧ s.x[rs3].toNat ≤ w.bits - s.x[rs2].toNat →
    Completes checked s (fun t => RegisterOnly s t rd [] ∧ result s.x[rs2].toNat t) ∧
    Completes unchecked s (fun t => RegisterOnly s t rd [] ∧ result s.x[rs2].toNat t)) ∧
  (w.bits ≤ s.x[rs2].toNat ∨ w.bits - s.x[rs2].toNat < s.x[rs3].toNat →
    Completes checked s (fun t => Raises s t 1) ∧ Completes unchecked s (fun t => RegisterOnly s t rd [])) ∧
  (s.x[rs3].toNat ≤ w.bits - s.x[rs2].toNat % w.bits →
    Completes fast s (fun t => RegisterOnly s t rd [] ∧ result (s.x[rs2].toNat % w.bits) t)) ∧
  (w.bits - s.x[rs2].toNat % w.bits < s.x[rs3].toNat → Completes fast s (fun t => RegisterOnly s t rd []))

/-- Bit `j` of the low `W` bits of a register, 0 above them. -/
def lowBit (w : Width) (v : Xword) (j : Nat) : Bool := decide (j < w.bits) && v.getLsbD j

/-! ### Which state a command may write -/

/-- The general register a command may write (10_state.md R21, 30_encoding.md R67): none for the commands without `rd` and
for the two whose `rd` is never written. -/
def destReg : Instr → Option Reg
  | .rdbitC _ rd _ _ | .rdbitU _ rd _ _ | .rdbitF _ rd _ _ => some rd
  | .wrbitC _ rd _ _ _ | .wrbitU _ rd _ _ _ | .wrbitF _ rd _ _ _ => some rd
  | .setbitC _ rd _ _ | .setbitU _ rd _ _ | .setbitF _ rd _ _ => some rd
  | .clrbitC _ rd _ _ | .clrbitU _ rd _ _ | .clrbitF _ rd _ _ => some rd
  | .tglbitC _ rd _ _ | .tglbitU _ rd _ _ | .tglbitF _ rd _ _ => some rd
  | .rdbitsC _ rd _ _ _ | .rdbitsU _ rd _ _ _ | .rdbitsF _ rd _ _ _ => some rd
  | .wrbitsC _ rd _ _ _ _ | .wrbitsU _ rd _ _ _ _ | .wrbitsF _ rd _ _ _ _ => some rd
  | .bget rd _ | .vget rd _ _ | .vlen rd _ | .vempty rd _ | .veq rd _ _ | .vne rd _ _ => some rd
  | .chk3 rd _ | .chk1 rd _ | .chk2 rd _ => some rd
  | .bset _ | .bclr _ | .bwr _ _ | .bwrbits _ _ _ => none
  | .vnew _ _ _ | .vnews _ _ _ _ | .vnewsl _ _ _ _ _ | .vput _ _ _ => none
  | .vclr _ | .vset _ | .vfill _ _ | .vequals _ _ _ | .vhash _ _ => none

/-- The descriptor a command may write (10_state.md R26): only the three construction commands have one. -/
def destView : Instr → Option ViewIdx
  | .vnew vd _ _ | .vnews vd _ _ _ | .vnewsl vd _ _ _ _ => some vd
  | _ => none

/-- The failure codes a command can end with (60_exceptions.md R180). -/
def failureCodes : Instr → List (BitVec 4)
  | .rdbitC _ _ _ _ | .wrbitC _ _ _ _ _ | .setbitC _ _ _ _ | .clrbitC _ _ _ _ | .tglbitC _ _ _ _ => [1]
  | .rdbitsC _ _ _ _ _ | .wrbitsC _ _ _ _ _ _ | .vget _ _ _ | .vput _ _ _ => [1]
  | .chk3 _ _ | .chk1 _ _ | .chk2 _ _ => [1]
  | .bwrbits _ _ _ => [1, 4]
  | .vnew _ _ _ | .vnews _ _ _ _ | .vnewsl _ _ _ _ _ => [2]
  | .vequals _ _ _ | .vhash _ _ => [3]
  | .bget _ _ | .bset _ | .bclr _ | .bwr _ _ => [4]
  | _ => []

/-- The address of an access. -/
def accessAddr : Access → Nat
  | .load a => a
  | .store a _ => a

/-- Every access lies in the span of one of these views (20_memory.md R55). -/
def inSpans (l : List Access) (views : List ViewDesc) : Prop :=
  ∀ a ∈ l, ∃ d ∈ views, d.length.toNat ≠ 0 ∧ d.base.toNat ≤ accessAddr a ∧
    accessAddr a ≤ d.base.toNat + (d.start.toNat + d.length.toNat - 1) / 8

/-- The reads of a comparison: only loads of bytes of the two spans, none when the lengths differ or are 0
(43_bit_view.md R152). -/
def comparisonReads (a b : ViewDesc) (l : List Access) : Prop :=
  (∀ c ∈ l, ∃ p, c = .load p) ∧ inSpans l [a, b] ∧ (a.length ≠ b.length ∨ a.length = 0 → l = [])

/-- The accesses of a fill of view `d` that leaves `byte a` at address `a` (43_bit_view.md R148): those of the fill plan in
order, a fully covered byte stored without a load, a partial one loaded and then stored. -/
def fillAccesses (d : ViewDesc) (byte : Nat → Byte) : List Access :=
  (fillplan d.start.toNat d.length.toNat).flatMap fun e =>
    (if e.2 = 0xFF then [] else [Access.load (d.base.toNat + e.1)]) ++
      [.store (d.base.toNat + e.1) (byte (d.base.toNat + e.1))]

/-- The accesses of a command that completes with `OK` and stores `byte a` where it stores to address `a` (20_memory.md R46,
70_reset_and_hazards.md R209): the byte of the flat bit index of `x[rs1]` for a buffer command, of view bit `x[rs1]` for
`VGET` and `VPUT`, the bytes of the fill plan for a fill, bytes of the two spans for a comparison. -/
def accessesOf (i : Instr) (s : State) (byte : Nat → Byte) (l : List Access) : Prop :=
  match i with
  | .bget _ rs1 => l = [.load (s.byteIndex rs1)]
  | .bset rs1 | .bclr rs1 | .bwr rs1 _ | .bwrbits rs1 _ _ =>
    l = [.load (s.byteIndex rs1), .store (s.byteIndex rs1) (byte (s.byteIndex rs1))]
  | .vget _ k rs1 => l = [.load (split (viewflat s.v[k] (s.operand rs1))).1]
  | .vput k rs1 _ =>
    l = [.load (split (viewflat s.v[k] (s.operand rs1))).1,
      .store (split (viewflat s.v[k] (s.operand rs1))).1 (byte (split (viewflat s.v[k] (s.operand rs1))).1)]
  | .vclr k | .vset k | .vfill k _ =>
    l = fillAccesses s.v[k] byte ∧ (s.v[k].length.toNat = 0 → l = []) ∧
      l.length ≤ (s.v[k].start.toNat + s.v[k].length.toNat + 7) / 8 + 2 ∧ (l.map accessAddr).Pairwise (· ≤ ·)
  | .veq _ a b | .vne _ a b => comparisonReads s.v[a] s.v[b] l
  | _ => l = []

/-- The views a view command names, for the commands that touch memory. -/
def viewsOf (i : Instr) (s : State) : Option (List ViewDesc) :=
  match i with
  | .vget _ k _ | .vput k _ _ | .vclr k | .vset k | .vfill k _ => some [s.v[k]]
  | .veq _ a b | .vne _ a b => some [s.v[a], s.v[b]]
  | _ => none

/-- A flat bit index addresses a bit of the view (10_state.md R23). -/
def covers (d : ViewDesc) (f : Nat) : Prop :=
  d.base.toNat * 8 + d.start.toNat ≤ f ∧ f < d.base.toNat * 8 + d.start.toNat + d.length.toNat

/-- What a fill with bit `value` of view `d` leaves (43_bit_view.md R148): every bit of the view is `value`, every other bit
of `MEM` is as it was; the accesses are those of the fill plan in order, a fully covered byte written without being
read and a partial one read, then written. -/
structure Filled (s t : State) (d : ViewDesc) (value : Nat) : Prop where
  inView : ∀ f : Nat, covers d f → t.mem.flatBit f = value
  outside : ∀ f : Nat, ¬ covers d f → t.mem.flatBit f = s.mem.flatBit f
  accesses : t.trace = fillAccesses d t.mem.read
  registers : t.x = s.x
  views : t.v = s.v
  status : t.status = 0
  response : t.reply = .response 0
  others : t.memBytes = s.memBytes ∧ t.inputs = s.inputs ∧ t.index = s.index

end Sys2Proof.Claims

open Sys2Proof.Claims

/-! ### Encoding (30_encoding.md) -/

/-- Decoding the word of any command gives that command back, with every operand. -/
def Obligations.DecodeOfEncodeIsTheCommand : Prop := ∀ i : Instr, decode (encode i) = .command i

/-- A word that decodes to a command is the word the encoder writes for it: each command has one word (R65). -/
def Obligations.DecodedWordIsTheEncodedWord : Prop :=
  ∀ (w : CmdWord) (i : Instr), decode w = .command i → encode i = w

/-- A word decodes to a command of a row's mnemonic exactly when `(w & mask) == match` (R67). -/
def Obligations.WordIsCommandOfARowExactlyWhenItMatches : Prop :=
  ∀ (w : CmdWord) (r : Row), r ∈ opcodeTable →
    ((∃ i, decode w = .command i ∧ i.mnemonic = r.mnemonic) ↔ w &&& r.mask = r.mtch)

/-- No two rows of the opcode table can match the same word (R67). -/
def Obligations.NoWordMatchesTwoRows : Prop :=
  ∀ (w : CmdWord) (j k : Nat) (r q : Row), opcodeTable[j]? = some r → opcodeTable[k]? = some q →
    w &&& r.mask = r.mtch → w &&& q.mask = q.mtch → j = k

/-- A word is illegal exactly when the field rules fail (an unassigned opcode, a reserved or non-zero `var`, a non-zero
`wsel`, unused field or `zero`), and an illegal word raises `IllegalCommand` and changes nothing but the code (R68). -/
def Obligations.IllegalWordsRaiseIllegalCommand : Prop :=
  ∀ w : CmdWord, (decode w = .illegal ↔ wellFormedWord w = false) ∧
    (wellFormedWord w = false → ∀ s : State, ∃ t, runCommand w s = .next t ∧ Raises s t 5)

/-- Words written out from the field layout of R60 decode to the commands they stand for, one of each family. -/
def Obligations.SampleWordsDecode : Prop :=
  decode 0x18484C00 = .command (.rdbitsC .w16 1 0 2 3) ∧ decode 0x1E602980 = .command (.wrbitsF .w16 4 0 1 2 3) ∧
    decode 0x50002800 = .command (.bwrbits 0 1 2) ∧ decode 0x88039720 = .command (.vnewsl 1 3 4 5 6) ∧
    decode 0xA8380058 = .command (.veq 7 2 3) ∧ decode 0xC01B0000 = .command (.chk3 3 3)

/-! ### Steps, the host's actions, reset -/

/-- When the host's next action presents a word that decodes to a command, the step runs exactly that command, and the
host's list moves on by one (the list is the model's form of a run, log 6). -/
def Obligations.StepRunsTheDecodedCommand : Prop :=
  ∀ (s : State) (w : CmdWord) (i : Instr) (rest : List HostAction),
    s.inputs = .command w :: rest → decode w = .command i →
    step s = match exec i s with
      | .next t => .next { t with inputs := rest, index := t.index + 1 }
      | .fault f => .fault f
      | .refused r => .refused r

/-- A step performs the host's next action, whatever it is (a word, the register port, a byte of `MEM`, reset), and moves
the host's list on by one (the list is log 6). A word is run as a command word, and an illegal one raises
`IllegalCommand` and changes nothing else (10_state.md R22, R31, 30_encoding.md R68, 70_reset_and_hazards.md R200, R208). -/
def Obligations.StepPerformsTheNextAction : Prop :=
  ∀ (s : State) (a : HostAction) (rest : List HostAction), s.inputs = a :: rest →
    (step s = match perform a s with
      | .next t => .next { t with inputs := rest, index := t.index + 1 }
      | .fault f => .fault f
      | .refused r => .refused r) ∧
    ∀ w : CmdWord, a = .command w → perform a s = runCommand w s ∧
      (decode w = .illegal →
        ∃ t, Raises s t 5 ∧ step s = .next { t with inputs := rest, index := t.index + 1 })

/-- A step that performs an action of the host takes it off the list and counts it, whatever its outcome code; a step
with no action left changes nothing (10_state.md R22; the idle step is log 6). -/
def Obligations.StepCountsOneAction : Prop :=
  ∀ s t : State, step s = .next t →
    (∀ a rest, s.inputs = a :: rest → t.inputs = rest ∧ t.index = s.index + 1) ∧ (s.inputs = [] → t = s)

/-- The register port (10_state.md R27, R31): ports 0 to 7 write and read the general registers, port 8 reads `STATUS`
and ignores writes. The field that shows read data is the model's (log 7). -/
def Obligations.RegisterPortReachesRegistersAndStatus : Prop :=
  ∀ (s : State) (v : Xword),
    (∀ (p : Port) (r : Reg), p.val = r.val →
      (∃ t, perform (.regWrite p v) s = .next t ∧ t.x[r] = v ∧ (∀ q : Reg, q ≠ r → t.x[q] = s.x[q]) ∧
        t.v = s.v ∧ t.status = s.status ∧ t.mem = s.mem) ∧
      (∃ t, perform (.regRead p) s = .next t ∧ t.reply = .data s.x[r] ∧
        t.x = s.x ∧ t.v = s.v ∧ t.status = s.status ∧ t.mem = s.mem)) ∧
    perform (.regWrite 8 v) s = .next s ∧
    (∃ t, perform (.regRead 8) s = .next t ∧ t.reply = .data (s.status.setWidth 64) ∧
      t.x = s.x ∧ t.v = s.v ∧ t.status = s.status ∧ t.mem = s.mem)

/-- The host's own bytes (10_state.md R31, 20_memory.md R51): a byte written is read back, no other byte and no register,
descriptor or code changes; a byte outside `MEM` is refused by name, the model's choice (log 10). -/
def Obligations.HostReadsAndWritesBytesOfMem : Prop :=
  ∀ (s : State) (a : Nat) (b : Byte), s.mem.wf →
    (a < s.memBytes.val →
      (∃ t, perform (.memWrite a b) s = .next t ∧ t.mem.read a = b ∧
        (∀ c, c ≠ a → t.mem.read c = s.mem.read c) ∧ t.x = s.x ∧ t.v = s.v ∧ t.status = s.status ∧
        ∃ u, perform (.memRead a) t = .next u ∧ u.reply = .data (b.setWidth 64) ∧ u.mem = t.mem)) ∧
    (s.memBytes.val ≤ a →
      perform (.memWrite a b) s = .refused (.hostAddressOutsideMem a) ∧
      perform (.memRead a) s = .refused (.hostAddressOutsideMem a))

/-- What the spec states of the state after reset, for every `MEM_BYTES`: every descriptor is the default view and
`STATUS` is 0 (10_state.md R25, R32); nothing is said of the registers. -/
def Obligations.ResetLeavesDefaultViewsAndStatusZero : Prop :=
  ∀ m : Config.MemSize,
    (∀ k : ViewIdx, (State.resetWith m).v[k] = { base := 0, nbytes := 0, start := 0, length := 0 }) ∧
      (State.resetWith m).status = 0 ∧ (State.resetWith m).memBytes = m

/-- Reset between commands (70_reset_and_hazards.md R200): every descriptor becomes the default view, `STATUS` 0, `MEM` and
`MEM_BYTES` are untouched; nothing is said of the registers. -/
def Obligations.ResetActionRestoresDefaults : Prop :=
  ∀ s : State, ∃ t, perform .reset s = .next t ∧
    (∀ k : ViewIdx, t.v[k] = { base := 0, nbytes := 0, start := 0, length := 0 }) ∧
      t.status = 0 ∧ t.mem = s.mem ∧ t.memBytes = s.memBytes

/-- The invariant holds after reset, for every `MEM_BYTES` (10_state.md R24). -/
def Obligations.ResetStateHasInvariant : Prop :=
  (∀ m : Config.MemSize, (State.resetWith m).Inv) ∧ State.reset.Inv

/-- Every step keeps the invariant: each descriptor is a view inside `MEM`, `STATUS` holds a code 0 to 5, memory keeps its
canonical form and has no byte outside `MEM` (10_state.md R24, R27). -/
def Obligations.EveryStepKeepsTheInvariant : Prop :=
  ∀ s t : State, s.Inv → step s = .next t → t.Inv

/-- From every state with the invariant, every command ends: none faults (43_bit_view.md R159, 60_exceptions.md R182). -/
def Obligations.EveryCommandEnds : Prop := ∀ (i : Instr) (s : State), s.Inv → ∃ t, exec i s = .next t

/-- A command stops the model in one case only: a byte address outside `MEM`, formed by a descriptor that breaks
10_state.md R24 (20_memory.md R41, 43_bit_view.md R159; the fault is log 10); it never refuses. -/
def Obligations.CommandsFaultOnlyOutsideTheInvariant : Prop :=
  ∀ (i : Instr) (s : State),
    (∀ f, exec i s = .fault f → (∃ a, f = .noSuchByte a ∧ s.memBytes.val ≤ a) ∧ ∃ k : ViewIdx, ¬ s.v[k].ok s.memBytes.val) ∧
      ∀ r, exec i s ≠ .refused r

/-- From every state with the invariant, a run whose host asks only for bytes of `MEM` never stops, whatever words the
host presents (60_exceptions.md R181). -/
def Obligations.RunsNeverStop : Prop :=
  ∀ s : State, s.Inv → (∀ a ∈ s.inputs, a.ok s.memBytes.val) → s.NeverStops

/-! ### Conditions (60_exceptions.md) -/

/-- Every command publishes one code, 0 to 5, in `STATUS` and in the response (R181, R180). -/
def Obligations.EveryCommandPublishesOneCode : Prop :=
  ∀ (i : Instr) (s t : State), exec i s = .next t →
    ∃ code : BitVec 4, code.toNat ≤ 5 ∧ t.status = code.setWidth 32 ∧ t.reply = .response code

/-- No partial success (R182): a command that ends with a failure code has changed nothing but the code and made no
memory access; one that has made an access has completed with `OK`. -/
def Obligations.FailedCommandChangesNothing : Prop :=
  ∀ (i : Instr) (s t : State), exec i s = .next t →
    (t.statusCode ≠ 0 → Raises s t t.statusCode) ∧ (t.trace ≠ [] → t.statusCode = 0)

/-- Which failure codes each command can end with (R180). -/
def Obligations.CommandsRaiseOnlyTheirOwnConditions : Prop :=
  ∀ (i : Instr) (s t : State), exec i s = .next t → t.statusCode = 0 ∨ t.statusCode ∈ failureCodes i

/-- Nothing latches a past outcome (10_state.md R28, 60_exceptions.md R181, R192): a command ends in the same state whatever
code, response and accesses the command before it left. -/
def Obligations.PastOutcomesDoNotStick : Prop :=
  ∀ (i : Instr) (s t : State) (status : BitVec 32) (reply : Reply) (trace : List Access),
    exec i s = .next t → exec i { s with status := status, reply := reply, trace := trace } = .next t

/-! ### What commands may write -/

/-- A command writes no general register but the one in its `rd` field (10_state.md R21); `MEM_BYTES` and the host's list
never change by a command. -/
def Obligations.CommandsWriteOnlyTheirDestinationRegister : Prop :=
  ∀ (i : Instr) (s t : State), exec i s = .next t →
    (∀ r : Reg, destReg i ≠ some r → t.x[r] = s.x[r]) ∧
      t.memBytes = s.memBytes ∧ t.inputs = s.inputs ∧ t.index = s.index

/-- No command but the three construction commands writes a descriptor, and those write only their own
(10_state.md R26). -/
def Obligations.OnlyConstructionWritesDescriptors : Prop :=
  ∀ (i : Instr) (s t : State), exec i s = .next t → ∀ k : ViewIdx, destView i ≠ some k → t.v[k] = s.v[k]

/-- The memory accesses of every command that completes with `OK` (20_memory.md R46): at which addresses, in what order, of
what kind; a byte of `MEM` changes only where a store was made, and a store leaves its byte there. -/
def Obligations.AccessesOfEachCommand : Prop :=
  ∀ (i : Instr) (s t : State), exec i s = .next t → t.statusCode = 0 →
    (∃ byte : Nat → Byte, accessesOf i s byte t.trace) ∧
      (∀ a : Nat, (∀ b, Access.store a b ∉ t.trace) → t.mem.read a = s.mem.read a) ∧
      (s.mem.wf → ∀ a b, Access.store a b ∈ t.trace → t.mem.read a = b)

/-- The memory port never sees an address outside `MEM` (20_memory.md R41), and a view command touches no byte outside the
spans of the views it names (20_memory.md R55). -/
def Obligations.AccessesStayInMemAndInSpans : Prop :=
  ∀ (i : Instr) (s t : State), exec i s = .next t →
    (∀ a ∈ t.trace, accessAddr a < s.memBytes.val) ∧
      (∀ views, viewsOf i s = some views → inSpans t.trace views)

/-! ### Scalar Bit Ops (41_scalar_bit_ops.md) -/

/-- `RDBIT.C`, `.U`, `.F` (R101 to R103) at every width and index. -/
def Obligations.RdbitReadsOneBit : Prop :=
  ∀ (w : Width) (rd rs1 rs2 : Reg) (s : State),
    BitCommand { op := 0x01, width := some w, rd := rd, rs1 := rs1, rs2 := rs2 }
      (.rdbitC w rd rs1 rs2) (.rdbitU w rd rs1 rs2) (.rdbitF w rd rs1 rs2) w rd rs2 s fun i t =>
      t.x[rd] = if (s.x[rs1]).getLsbD i then 1 else 0

/-- `WRBIT.C`, `.U`, `.F` (R104 to R106): the bit takes the normalised state, the rest of the scalar is kept, the bits
above it become 0. -/
def Obligations.WrbitWritesOneBit : Prop :=
  ∀ (w : Width) (rd rs1 rs2 rs3 : Reg) (s : State),
    BitCommand { op := 0x02, width := some w, rd := rd, rs1 := rs1, rs2 := rs2, rs3 := rs3 }
      (.wrbitC w rd rs1 rs2 rs3) (.wrbitU w rd rs1 rs2 rs3) (.wrbitF w rd rs1 rs2 rs3) w rd rs2 s fun i t =>
      ∀ j, (t.x[rd]).getLsbD j = if j = i then decide (s.x[rs3] ≠ 0) else lowBit w s.x[rs1] j

/-- `SETBIT.C`, `.U`, `.F` (R107 to R109). -/
def Obligations.SetbitSetsOneBit : Prop :=
  ∀ (w : Width) (rd rs1 rs2 : Reg) (s : State),
    BitCommand { op := 0x03, width := some w, rd := rd, rs1 := rs1, rs2 := rs2 }
      (.setbitC w rd rs1 rs2) (.setbitU w rd rs1 rs2) (.setbitF w rd rs1 rs2) w rd rs2 s fun i t =>
      ∀ j, (t.x[rd]).getLsbD j = (decide (j = i) || lowBit w s.x[rs1] j)

/-- `CLRBIT.C`, `.U`, `.F` (R110 to R112). -/
def Obligations.ClrbitClearsOneBit : Prop :=
  ∀ (w : Width) (rd rs1 rs2 : Reg) (s : State),
    BitCommand { op := 0x04, width := some w, rd := rd, rs1 := rs1, rs2 := rs2 }
      (.clrbitC w rd rs1 rs2) (.clrbitU w rd rs1 rs2) (.clrbitF w rd rs1 rs2) w rd rs2 s fun i t =>
      ∀ j, (t.x[rd]).getLsbD j = (!decide (j = i) && lowBit w s.x[rs1] j)

/-- `TGLBIT.C`, `.U`, `.F` (R113 to R115). -/
def Obligations.TglbitTogglesOneBit : Prop :=
  ∀ (w : Width) (rd rs1 rs2 : Reg) (s : State),
    BitCommand { op := 0x05, width := some w, rd := rd, rs1 := rs1, rs2 := rs2 }
      (.tglbitC w rd rs1 rs2) (.tglbitU w rd rs1 rs2) (.tglbitF w rd rs1 rs2) w rd rs2 s fun i t =>
      ∀ j, (t.x[rd]).getLsbD j = if j = i then !(s.x[rs1]).getLsbD j else lowBit w s.x[rs1] j

/-- `RDBITS.C`, `.U`, `.F` (R116 to R118): the field, in the low bits of `x[rd]`, zeros above it. -/
def Obligations.RdbitsReadsTheField : Prop :=
  ∀ (w : Width) (rd rs1 rs2 rs3 : Reg) (s : State),
    FieldCommand { op := 0x06, width := some w, rd := rd, rs1 := rs1, rs2 := rs2, rs3 := rs3 }
      (.rdbitsC w rd rs1 rs2 rs3) (.rdbitsU w rd rs1 rs2 rs3) (.rdbitsF w rd rs1 rs2 rs3)
      w rd rs2 rs3 s
      fun i t => ∀ j, (t.x[rd]).getLsbD j = (decide (j < s.x[rs3].toNat) && (s.x[rs1]).getLsbD (i + j))

/-- `WRBITS.C`, `.U`, `.F` (R119 to R121): the field takes the low bits of `bits`, the rest of the scalar is kept, the bits
above it become 0. -/
def Obligations.WrbitsWritesTheField : Prop :=
  ∀ (w : Width) (rd rs1 rs2 rs3 rs4 : Reg) (s : State),
    FieldCommand { op := 0x07, width := some w, rd := rd, rs1 := rs1, rs2 := rs2, rs3 := rs3, rs4 := rs4 }
      (.wrbitsC w rd rs1 rs2 rs3 rs4) (.wrbitsU w rd rs1 rs2 rs3 rs4)
      (.wrbitsF w rd rs1 rs2 rs3 rs4) w rd rs2 rs3 s
      fun i t => ∀ j, (t.x[rd]).getLsbD j =
        if i ≤ j ∧ j < i + s.x[rs3].toNat then (s.x[rs4]).getLsbD (j - i) else lowBit w s.x[rs1] j

/-! ### Byte-Buffer Bit Ops (42_buffer_bit_ops.md) -/

/-- `BGET` (R131): one read; `BufferIndex` exactly when the byte is not in `MEM`. -/
def Obligations.BgetReadsOneBit : Prop :=
  ∀ (rd rs1 : Reg) (s : State),
    EncodedAs (.bget rd rs1) { op := 0x10, rd := rd, rs1 := rs1 } ∧
    (s.byteIndex rs1 < s.memBytes.val → Completes (.bget rd rs1) s fun t =>
      RegisterOnly s t rd [.load (s.byteIndex rs1)] ∧
        t.x[rd] = if (s.mem.read (s.byteIndex rs1)).getLsbD (s.bitIndex rs1) then 1 else 0) ∧
    (s.memBytes.val ≤ s.byteIndex rs1 → Completes (.bget rd rs1) s fun t => Raises s t 4)

/-- `BSET`, `BCLR`, `BWR` (R132 to R134): the bit is 1, 0, the normalised state; the other seven bits of the byte are
written back, every other byte is kept; `BufferIndex` exactly when the byte is not in `MEM`. -/
def Obligations.BufferBitStoresChangeOneBit : Prop :=
  ∀ (rs1 rs2 : Reg) (s : State), s.mem.wf →
    (EncodedAs (.bset rs1) { op := 0x11, rs1 := rs1 } ∧
      EncodedAs (.bclr rs1) { op := 0x12, rs1 := rs1 } ∧
      EncodedAs (.bwr rs1 rs2) { op := 0x13, rs1 := rs1, rs2 := rs2 }) ∧
    ∀ c ∈ [(Instr.bset rs1, true), (.bclr rs1, false), (.bwr rs1 rs2, decide (s.x[rs2] ≠ 0))],
      (s.byteIndex rs1 < s.memBytes.val → Completes c.1 s fun t =>
        StoresOnly s t (s.byteIndex rs1) ∧
          ∀ j, j < 8 → (t.mem.read (s.byteIndex rs1)).getLsbD j =
            if j = s.bitIndex rs1 then c.2 else (s.mem.read (s.byteIndex rs1)).getLsbD j) ∧
      (s.memBytes.val ≤ s.byteIndex rs1 → Completes c.1 s fun t => Raises s t 4)

/-- `BWRBITS` (R135): `OutOfRange` exactly when the field crosses the byte, whatever the byte index; then `BufferIndex`
exactly when the byte is not in `MEM`; otherwise the field of the byte takes the low bits of `bits`. -/
def Obligations.BwrbitsWritesAFieldOfOneByte : Prop :=
  ∀ (rs1 rs2 rs3 : Reg) (s : State), s.mem.wf →
    EncodedAs (.bwrbits rs1 rs2 rs3) { op := 0x14, rs1 := rs1, rs2 := rs2, rs3 := rs3 } ∧
    (8 - s.bitIndex rs1 < s.x[rs3].toNat → Completes (.bwrbits rs1 rs2 rs3) s fun t => Raises s t 1) ∧
    (s.x[rs3].toNat ≤ 8 - s.bitIndex rs1 → s.memBytes.val ≤ s.byteIndex rs1 →
      Completes (.bwrbits rs1 rs2 rs3) s fun t => Raises s t 4) ∧
    (s.x[rs3].toNat ≤ 8 - s.bitIndex rs1 → s.byteIndex rs1 < s.memBytes.val →
      Completes (.bwrbits rs1 rs2 rs3) s fun t =>
        StoresOnly s t (s.byteIndex rs1) ∧
          ∀ j, j < 8 → (t.mem.read (s.byteIndex rs1)).getLsbD j =
            if s.bitIndex rs1 ≤ j ∧ j < s.bitIndex rs1 + s.x[rs3].toNat then (s.x[rs2]).getLsbD (j - s.bitIndex rs1)
            else (s.mem.read (s.byteIndex rs1)).getLsbD j)

/-! ### Bit View (43_bit_view.md) -/

/-- `VNEW` (R141): the whole-buffer view (its base where the field holds it, log 8), or `MalformedGeometry` exactly
when the slice is not inside `MEM`. -/
def Obligations.VnewConstructsTheWholeSlice : Prop :=
  ∀ (vd : ViewIdx) (rs1 rs2 : Reg) (s : State),
    EncodedAs (.vnew vd rs1 rs2) { op := 0x20, va := vd, rs1 := rs1, rs2 := rs2 } ∧
    (s.x[rs1].toNat + s.x[rs2].toNat ≤ s.memBytes.val → Completes (.vnew vd rs1 rs2) s fun t =>
      ViewOnly s t vd ∧ ViewIs t.v[vd] s.x[rs1].toNat s.x[rs2].toNat 0 (s.x[rs2].toNat * 8)) ∧
    (s.memBytes.val < s.x[rs1].toNat + s.x[rs2].toNat →
      Completes (.vnew vd rs1 rs2) s fun t => Raises s t 2)

/-- `VNEWS` (R142): the start-only view (base: log 8), its byte part taken off the slice, or `MalformedGeometry`. -/
def Obligations.VnewsConstructsFromTheStart : Prop :=
  ∀ (vd : ViewIdx) (rs1 rs2 rs3 : Reg) (s : State),
    EncodedAs (.vnews vd rs1 rs2 rs3) { op := 0x21, va := vd, rs1 := rs1, rs2 := rs2, rs3 := rs3 } ∧
    (s.x[rs1].toNat + s.x[rs2].toNat ≤ s.memBytes.val ∧ s.x[rs3].toNat ≤ s.x[rs2].toNat * 8 →
      Completes (.vnews vd rs1 rs2 rs3) s fun t =>
        ViewOnly s t vd ∧ ViewIs t.v[vd] (s.x[rs1].toNat + s.x[rs3].toNat / 8) (s.x[rs2].toNat - s.x[rs3].toNat / 8)
          (s.x[rs3].toNat % 8) (s.x[rs2].toNat * 8 - s.x[rs3].toNat)) ∧
    (s.memBytes.val < s.x[rs1].toNat + s.x[rs2].toNat ∨ s.x[rs2].toNat * 8 < s.x[rs3].toNat →
      Completes (.vnews vd rs1 rs2 rs3) s fun t => Raises s t 2)

/-- `VNEWSL` (R143): the window of `length` bits from `start` (base: log 8), or `MalformedGeometry`; no sum wraps. -/
def Obligations.VnewslConstructsTheWindow : Prop :=
  ∀ (vd : ViewIdx) (rs1 rs2 rs3 rs4 : Reg) (s : State),
    EncodedAs (.vnewsl vd rs1 rs2 rs3 rs4) { op := 0x22, va := vd, rs1 := rs1, rs2 := rs2, rs3 := rs3, rs4 := rs4 } ∧
    (s.x[rs1].toNat + s.x[rs2].toNat ≤ s.memBytes.val ∧
        s.x[rs3].toNat + s.x[rs4].toNat ≤ s.x[rs2].toNat * 8 →
      Completes (.vnewsl vd rs1 rs2 rs3 rs4) s fun t =>
        ViewOnly s t vd ∧ ViewIs t.v[vd] (s.x[rs1].toNat + s.x[rs3].toNat / 8) (s.x[rs2].toNat - s.x[rs3].toNat / 8)
          (s.x[rs3].toNat % 8) s.x[rs4].toNat) ∧
    (s.memBytes.val < s.x[rs1].toNat + s.x[rs2].toNat ∨
        s.x[rs2].toNat * 8 < s.x[rs3].toNat + s.x[rs4].toNat →
      Completes (.vnewsl vd rs1 rs2 rs3 rs4) s fun t => Raises s t 2)

/-- A construction that completes with `OK` leaves a view inside `MEM` in its destination, whatever stood there
(10_state.md R24, 43_bit_view.md R140), also where the base does not fit its field (log 8). -/
def Obligations.ConstructedViewsAreInsideMem : Prop :=
  ∀ (i : Instr) (vd : ViewIdx) (s t : State), destView i = some vd → exec i s = .next t → t.statusCode = 0 →
    t.v[vd].ok t.memBytes.val

/-- `VGET` (R144): view bit `i`, one read; `OutOfRange` exactly when `i >= length`. -/
def Obligations.VgetReadsTheViewBit : Prop :=
  ∀ (rd : Reg) (va : ViewIdx) (rs1 : Reg) (s : State),
    EncodedAs (.vget rd va rs1) { op := 0x23, rd := rd, va := va, rs1 := rs1 } ∧
    (s.v[va].ok s.memBytes.val → s.x[rs1].toNat < s.v[va].length.toNat → Completes (.vget rd va rs1) s fun t =>
      RegisterOnly s t rd [.load (split (viewflat s.v[va] (s.operand rs1))).1] ∧
        (t.x[rd]).toNat = s.mem.flatBit (s.v[va].base.toNat * 8 + s.v[va].start.toNat + s.x[rs1].toNat)) ∧
    (s.v[va].length.toNat ≤ s.x[rs1].toNat → Completes (.vget rd va rs1) s fun t => Raises s t 1)

/-- `VPUT` (R145): view bit `i` takes the normalised state, no other bit of `MEM` changes; `OutOfRange` exactly when
`i >= length`. -/
def Obligations.VputWritesTheViewBit : Prop :=
  ∀ (va : ViewIdx) (rs1 rs2 : Reg) (s : State), s.mem.wf →
    EncodedAs (.vput va rs1 rs2) { op := 0x24, va := va, rs1 := rs1, rs2 := rs2 } ∧
    (s.v[va].ok s.memBytes.val → s.x[rs1].toNat < s.v[va].length.toNat → Completes (.vput va rs1 rs2) s fun t =>
      StoresOnly s t (split (viewflat s.v[va] (s.operand rs1))).1 ∧
        ∀ f, t.mem.flatBit f =
          if f = s.v[va].base.toNat * 8 + s.v[va].start.toNat + s.x[rs1].toNat then (if s.x[rs2] = 0 then 0 else 1)
          else s.mem.flatBit f) ∧
    (s.v[va].length.toNat ≤ s.x[rs1].toNat → Completes (.vput va rs1 rs2) s fun t => Raises s t 1)

/-- A bit written through one view is read through any view that addresses the same bit (20_memory.md R56). -/
def Obligations.AliasedViewsSeeTheSameBit : Prop :=
  ∀ (va vb : ViewIdx) (ri rs rj rd : Reg) (s : State), s.mem.wf → s.v[va].ok s.memBytes.val →
    s.v[vb].ok s.memBytes.val → s.x[ri].toNat < s.v[va].length.toNat → s.x[rj].toNat < s.v[vb].length.toNat →
    viewflat s.v[va] s.x[ri].toNat = viewflat s.v[vb] s.x[rj].toNat →
    Completes (.vput va ri rs) s fun t => Completes (.vget rd vb rj) t fun u =>
      u.x[rd] = if s.x[rs] = 0 then 0 else 1

/-- `VLEN` (R146) and `VEMPTY` (R147) of any descriptor; of one that keeps its invariant, `VEMPTY` gives 1 exactly when
the length is 0. -/
def Obligations.VlenAndVemptyReadTheDescriptor : Prop :=
  ∀ (rd : Reg) (va : ViewIdx) (s : State),
    (EncodedAs (.vlen rd va) { op := 0x25, rd := rd, va := va } ∧
      EncodedAs (.vempty rd va) { op := 0x26, rd := rd, va := va }) ∧
    (Completes (.vlen rd va) s fun t => RegisterOnly s t rd [] ∧ (t.x[rd]).toNat = s.v[va].length.toNat) ∧
    (Completes (.vempty rd va) s fun t => RegisterOnly s t rd [] ∧
      (t.x[rd] = if s.v[va].length.toNat = 0 ∨ s.v[va].nbytes.toNat = 0 then 1 else 0) ∧
      (s.v[va].ok s.memBytes.val → (t.x[rd] = 1 ↔ s.v[va].length.toNat = 0)))

/-- The default view (10_state.md R25): it has no bit. `VLEN` gives 0, `VEMPTY` 1, the fills touch no memory, `VGET` and
`VPUT` fail for every index, and it compares equal to every view of length 0. -/
def Obligations.DefaultViewAddressesNothing : Prop :=
  ∀ (rd : Reg) (k other : ViewIdx) (rs1 rs2 : Reg) (s : State),
    s.v[k] = { base := 0, nbytes := 0, start := 0, length := 0 } →
    (Completes (.vlen rd k) s fun t => RegisterOnly s t rd [] ∧ t.x[rd] = 0) ∧
    (Completes (.vempty rd k) s fun t => RegisterOnly s t rd [] ∧ t.x[rd] = 1) ∧
    (∀ i ∈ [Instr.vclr k, .vset k, .vfill k rs1], Completes i s fun t =>
      t.trace = [] ∧ t.mem = s.mem ∧ t.x = s.x ∧ t.v = s.v ∧ t.status = 0) ∧
    (∀ i ∈ [Instr.vget rd k rs1, .vput k rs1 rs2], Completes i s fun t => Raises s t 1) ∧
    (s.v[other].length.toNat = 0 →
      (Completes (.veq rd k other) s fun t => RegisterOnly s t rd [] ∧ t.x[rd] = 1) ∧
      (Completes (.vne rd k other) s fun t => RegisterOnly s t rd [] ∧ t.x[rd] = 0))

/-- `VCLR`, `VSET`, `VFILL` (R148 to R151): every bit of the view takes the fill bit, every other bit of `MEM` is kept, and
the accesses are those of the fill plan. -/
def Obligations.FillsWriteExactlyTheView : Prop :=
  ∀ (va : ViewIdx) (rs1 : Reg) (s : State), s.mem.wf → s.v[va].ok s.memBytes.val →
    (EncodedAs (.vclr va) { op := 0x27, va := va } ∧
      EncodedAs (.vset va) { op := 0x28, va := va } ∧
      EncodedAs (.vfill va rs1) { op := 0x29, va := va, rs1 := rs1 }) ∧
    Completes (.vclr va) s (fun t => Filled s t s.v[va] 0) ∧
    Completes (.vset va) s (fun t => Filled s t s.v[va] 1) ∧
    Completes (.vfill va rs1) s (fun t => Filled s t s.v[va] (if s.x[rs1] = 0 then 0 else 1))

/-- `VFILL` with state 0 is `VCLR`, with any other state `VSET` (R151), in every state. -/
def Obligations.VfillIsVclrOrVset : Prop :=
  ∀ (va : ViewIdx) (rs1 : Reg) (s : State),
    exec (.vfill va rs1) s = if s.x[rs1] = 0 then exec (.vclr va) s else exec (.vset va) s

/-- The fill plan (40_datapath_functions.md R98): the offsets are 0 to the last byte the view touches, in order, and bit `j`
of the mask at offset `k` is set exactly when the view addresses it; an empty view has an empty plan. -/
def Obligations.FillPlanCoversExactlyTheView : Prop :=
  ∀ start length : Nat, start ≤ 7 →
    ((fillplan start length).map Prod.fst = if length = 0 then [] else List.range ((start + length - 1) / 8 + 1)) ∧
      ∀ e ∈ fillplan start length, e.2 < 256 ∧
        ∀ j, j < 8 → e.2.testBit j = decide (start ≤ 8 * e.1 + j ∧ 8 * e.1 + j < start + length)

/-- `VEQ` and `VNE` (R152 to R154): 1 and 0, or 0 and 1, as the two views have the same bits in the same order; only reads,
of bytes of the two spans, none when the lengths differ or are 0. -/
def Obligations.VeqAndVneCompareTheBits : Prop :=
  ∀ (rd : Reg) (va vb : ViewIdx) (s : State), s.v[va].ok s.memBytes.val → s.v[vb].ok s.memBytes.val →
    (EncodedAs (.veq rd va vb) { op := 0x2A, rd := rd, va := va, vb := vb } ∧
      EncodedAs (.vne rd va vb) { op := 0x2B, rd := rd, va := va, vb := vb }) ∧
    (Completes (.veq rd va vb) s fun t => (∃ l, RegisterOnly s t rd l ∧ comparisonReads s.v[va] s.v[vb] l) ∧
      t.x[rd] = if enumerate s.mem s.v[va] = enumerate s.mem s.v[vb] then 1 else 0) ∧
    (Completes (.vne rd va vb) s fun t => (∃ l, RegisterOnly s t rd l ∧ comparisonReads s.v[va] s.v[vb] l) ∧
      t.x[rd] = if enumerate s.mem s.v[va] = enumerate s.mem s.v[vb] then 0 else 1)

/-- Enumeration (R157): the host that issues `VLEN` and then `VGET` for `i = 0 .. length - 1` reads the sequence
`enum(d)`, element by element. -/
def Obligations.VgetEnumeratesTheView : Prop :=
  ∀ (rd : Reg) (va : ViewIdx) (rs1 : Reg) (s : State), s.v[va].ok s.memBytes.val →
    (enumerate s.mem s.v[va]).length = s.v[va].length.toNat ∧
      ∀ b, (enumerate s.mem s.v[va])[s.x[rs1].toNat]? = some b →
        Completes (.vget rd va rs1) s fun t => (t.x[rd]).toNat = b

/-- `VEQUALS` (R155) and `VHASH` (R156) always raise `Unsupported`, and nothing else happens. -/
def Obligations.VequalsAndVhashRaiseUnsupported : Prop :=
  ∀ (rd : Reg) (va vb : ViewIdx) (s : State),
    (EncodedAs (.vequals rd va vb) { op := 0x2C, rd := rd, va := va, vb := vb } ∧
      EncodedAs (.vhash rd va) { op := 0x2D, rd := rd, va := va }) ∧
    (Completes (.vequals rd va vb) s fun t => Raises s t 3) ∧ (Completes (.vhash rd va) s fun t => Raises s t 3)

/-- Every byte address a view forms is in its slice and in `MEM` (40_datapath_functions.md R95, 43_bit_view.md R159). -/
def Obligations.ViewBitsLieInTheSlice : Prop :=
  ∀ (d : ViewDesc) (memBytes i : Nat), d.ok memBytes → i < d.length.toNat →
    viewflat d i = d.base.toNat * 8 + d.start.toNat + i ∧
      (split (viewflat d i)).1 < d.base.toNat + d.nbytes.toNat ∧ (split (viewflat d i)).1 < memBytes ∧
      d.spans (split (viewflat d i)).1 = true

/-! ### Bounded Scalar Types (44_bounded_scalar.md) -/

/-- `CHK3`, `CHK1`, `CHK2` (R171 to R173): the raw value when it is at most 7, 1, 3; `OutOfRange` exactly when it is
above. -/
def Obligations.BoundedChecksCopyOrRaise : Prop :=
  ∀ (rd rs1 : Reg) (s : State),
    (EncodedAs (.chk3 rd rs1) { op := 0x30, rd := rd, rs1 := rs1 } ∧
      EncodedAs (.chk1 rd rs1) { op := 0x31, rd := rd, rs1 := rs1 } ∧
      EncodedAs (.chk2 rd rs1) { op := 0x32, rd := rd, rs1 := rs1 }) ∧
    ∀ c ∈ [(Instr.chk3 rd rs1, 7), (.chk1 rd rs1, 1), (.chk2 rd rs1, 3)],
    (s.x[rs1].toNat ≤ c.2 → Completes c.1 s fun t => RegisterOnly s t rd [] ∧ t.x[rd] = s.x[rs1]) ∧
    (c.2 < s.x[rs1].toNat → Completes c.1 s fun t => Raises s t 1)

/-! ### Datapath functions (40_datapath_functions.md) and bit order (20_memory.md) -/

/-- The flat index split (R80). -/
def Obligations.SplitIsByteAndBit : Prop :=
  ∀ f : Nat, f = 8 * (split f).1 + (split f).2 ∧ (split f).2 ≤ 7

/-- The fast index wrap is the index modulo `W` (R83). -/
def Obligations.FastIndexIsModuloWidth : Prop :=
  ∀ (w : Width) (index : Nat), fastidx w.bits index = index % w.bits ∧ fastidx w.bits index < w.bits

/-- The laws of the bit and field primitives (R94). -/
def Obligations.BitAndFieldLaws : Prop :=
  ∀ (w : Width) (v i count bits : Nat), v < 2 ^ w.bits → i < w.bits → count ≤ w.bits - i → bits < 2 ^ 64 →
    writeBit w.bits v i (readBit w.bits v i) = v ∧
    readBit w.bits (setBit w.bits v i) i = 1 ∧ readBit w.bits (clearBit w.bits v i) i = 0 ∧
    toggleBit w.bits (toggleBit w.bits v i) i = v ∧
    readBits w.bits (writeBits w.bits v i count bits) i count = bits &&& fieldmask count ∧
    (∀ j, ¬ (i ≤ j ∧ j < i + count) → (writeBits w.bits v i count bits).testBit j = v.testBit j) ∧
    (∀ n ∈ [writeBit w.bits v i bits, setBit w.bits v i, clearBit w.bits v i, toggleBit w.bits v i,
      readBits w.bits v i count, writeBits w.bits v i count bits, bitmask i, norm bits <<< i, fieldmask count <<< i,
      (bits &&& fieldmask count) <<< i], n < 2 ^ w.bits)

/-- The edge cases of the field primitives (R93): a field of no bits, the whole scalar, and a count that would run past
the width from its index. -/
def Obligations.FieldEdgeCases : Prop :=
  ∀ (w : Width) (v b : Nat), v < 2 ^ w.bits →
    (∀ i, i < w.bits → readBits w.bits v i 0 = 0 ∧ writeBits w.bits v i 0 b = v) ∧
      readBits w.bits v 0 w.bits = v ∧ writeBits w.bits v 0 w.bits b = b % 2 ^ w.bits ∧
      ∀ i count, (validField w.bits i count = true ↔ i < w.bits ∧ i + count ≤ w.bits)

/-- Bit `i` of a scalar that a host loads little-endian from address `a` is flat bit `8 a + i` of `MEM`
(20_memory.md R43). -/
def Obligations.LittleEndianLoadAgreesWithFlatBits : Prop :=
  ∀ (m : Memory) (a n i : Nat), i < 8 * n →
    (m.loadLittleEndian a n).testBit i = decide (m.flatBit (8 * a + i) = 1)
end

