-- ==== Sys2Proof/Laws/Datapath.lean ====
section
/-! SUPPORT. The bits of each datapath function (40_datapath_functions.md R80 to R98). -/

namespace Sys2Proof.Machine

/-- Bits of `~_N(a)`. -/
theorem testBit_compl {n a j : Nat} (h : a < 2 ^ n) :
    (compl n a).testBit j = (decide (j < n) && !a.testBit j) := by
  unfold Machine.compl; rw [show 2 ^ n - 1 - a = 2 ^ n - (a + 1) by omega, Nat.testBit_two_pow_sub_succ h]

/-- Bits of `trunc_N(v)`. -/
theorem testBit_trunc (n v j : Nat) : (trunc n v).testBit j = (decide (j < n) && v.testBit j) := by
  simp [trunc, Nat.testBit_mod_two_pow]

/-- Bits of a normalised state moved to an index. -/
theorem testBit_norm_shiftLeft (s i j : Nat) :
    (norm s <<< i).testBit j = (decide (j = i) && decide (s ≠ 0)) := by
  unfold Machine.norm
  by_cases hs : s = 0
  · simp [hs]
  · simp only [hs, ne_eq, not_false_eq_true, if_true, Nat.one_shiftLeft, Nat.testBit_two_pow, decide_true,
      Bool.and_true]
    exact decide_eq_decide.mpr eq_comm

/-- A single-bit mask below the width is a `W`-bit value. -/
theorem bitmask_lt {i W : Nat} (h : i < W) : bitmask i < 2 ^ W := Nat.pow_lt_pow_right (by decide) h

/-- Bits of the single-bit mask. -/
theorem testBit_bitmask (i j : Nat) : (bitmask i).testBit j = decide (i = j) := Nat.testBit_two_pow

/-- Bits of the field mask. -/
theorem testBit_fieldmask (c j : Nat) :
    (fieldmask c).testBit j = decide (j < c) := Nat.testBit_two_pow_sub_one ..

/-- `read_bit` is the bit as 0 or 1. -/
theorem readBit_eq_testBit (W v i : Nat) : readBit W v i = if v.testBit i then 1 else 0 := by
  unfold readBit
  have e : v &&& bitmask i = (v.testBit i).toNat * 2 ^ i := Nat.and_two_pow v i
  cases h : v.testBit i <;> rw [h] at e <;> simp [e]

/-- A `W`-bit value has no bit at or above `W`. -/
theorem testBit_above {W v j : Nat} (hv : v < 2 ^ W) (h : W ≤ j) :
    v.testBit j = false :=
  Nat.testBit_lt_two_pow (Nat.lt_of_lt_of_le hv (Nat.pow_le_pow_right (by decide) h))

/-- Bits of `write_bit`. -/
theorem testBit_writeBit {W v i st j : Nat} (hv : v < 2 ^ W) (hi : i < W) :
    (writeBit W v i st).testBit j = if j = i then decide (st ≠ 0) else v.testBit j := by
  rw [writeBit, Nat.testBit_or, Nat.testBit_and, testBit_compl (bitmask_lt hi), testBit_bitmask,
    testBit_norm_shiftLeft]
  by_cases h : j = i
  · subst h; simp
  · have : i ≠ j := Ne.symm h
    by_cases hj : j < W
    · simp [h, this, hj]
    · simp [h, testBit_above hv (Nat.le_of_not_lt hj)]

/-- Bits of `set_bit`. -/
theorem testBit_setBit {W v i j : Nat} : (setBit W v i).testBit j = (decide (j = i) || v.testBit j) := by
  rw [setBit, Nat.testBit_or, testBit_bitmask, Bool.or_comm]; simp [eq_comm]

/-- Bits of `clear_bit`. -/
theorem testBit_clearBit {W v i j : Nat} (hv : v < 2 ^ W) (hi : i < W) :
    (clearBit W v i).testBit j = (!decide (j = i) && v.testBit j) := by
  rw [clearBit, Nat.testBit_and, testBit_compl (bitmask_lt hi), testBit_bitmask]
  by_cases hj : j < W
  · simp [hj, Bool.and_comm, eq_comm]
  · simp [testBit_above hv (Nat.le_of_not_lt hj)]

/-- Bits of `toggle_bit`. -/
theorem testBit_toggleBit {W v i j : Nat} :
    (toggleBit W v i).testBit j = if j = i then !v.testBit j else v.testBit j := by
  rw [toggleBit, Nat.testBit_xor, testBit_bitmask]; by_cases h : j = i
  · subst h; simp
  · simp [h, Ne.symm h]

/-- Bits of `read_bits`. -/
theorem testBit_readBits {W v i c j : Nat} :
    (readBits W v i c).testBit j = (decide (j < c) && v.testBit (i + j)) := by
  rw [readBits, Nat.testBit_and, Nat.testBit_shiftRight, testBit_fieldmask, Bool.and_comm]

/-- A field mask that fits above its index is a `W`-bit value. -/
theorem fieldmask_shiftLeft_lt {c i W : Nat} (h : i + c ≤ W) : fieldmask c <<< i < 2 ^ W := by
  rw [Nat.shiftLeft_eq, fieldmask]
  have : 2 ^ c * 2 ^ i ≤ 2 ^ W := by rw [← Nat.pow_add]; exact Nat.pow_le_pow_right (by decide) (by omega)
  have h1 : 0 < 2 ^ c := Nat.pow_pos (by decide)
  have h2 : 0 < 2 ^ i := Nat.pow_pos (by decide)
  calc (2 ^ c-1)*2 ^ i < 2 ^ c*2 ^ i := Nat.mul_lt_mul_of_pos_right (by omega) h2
    _ ≤ _ := this

/-- Bits of `write_bits`. -/
theorem testBit_writeBits {W v i c b j : Nat} (hv : v < 2 ^ W) (h : i + c ≤ W) :
    (writeBits W v i c b).testBit j = if i ≤ j ∧ j < i + c then b.testBit (j - i) else v.testBit j := by
  rw [writeBits, Nat.testBit_or, Nat.testBit_and, testBit_compl (fieldmask_shiftLeft_lt h),
    Nat.testBit_shiftLeft, Nat.testBit_shiftLeft, Nat.testBit_and, testBit_fieldmask]
  by_cases hj : j < W
  · by_cases h1 : i ≤ j
    · by_cases h2 : j < i + c
      · have : j - i < c := by omega
        simp [hj, h1, h2, this]
      · have : ¬ (j - i < c) := by omega
        simp [hj, h1, h2, this]
    · simp [hj, h1]
  · have : ¬ (j < i + c) := by omega
    have h3 : ¬ (j - i < c) := by omega
    simp [testBit_above hv (Nat.le_of_not_lt hj), hj, this, h3]

/-- Bits of the head mask (R96). -/
theorem testBit_headmask (s : Nat) {j : Nat} (hj : j < 8) : (headmask s).testBit j = decide (s ≤ j) := by
  rw [headmask, testBit_trunc, Nat.testBit_shiftLeft, show (0xFF : Nat) = 2 ^ 8 - 1 from rfl,
    Nat.testBit_two_pow_sub_one]
  by_cases h : s ≤ j
  · simp [hj, h]; omega
  · simp [h]

/-- Bits of the tail mask (R97). -/
theorem testBit_tailmask (e : Nat) {j : Nat} (hj : j < 8) :
    (tailmask e).testBit j = decide (e = 0 ∨ j < e) := by
  rw [tailmask]; split
  · rw [show (0xFF : Nat) = 2 ^ 8 - 1 from rfl, Nat.testBit_two_pow_sub_one]; simp [*]
  · rw [Nat.testBit_two_pow_sub_one]; simp [*]

end Sys2Proof.Machine
end

