-- ==== Sys2Proof/Laws/Decode.lean ====
section
/-! SUPPORT. Packing and reading the fields of a command word (30_encoding.md R60). -/

namespace Sys2Proof

/-- The fields read from a packed word are the fields packed. -/
theorem fieldsOf_packFields (f : Fields) : fieldsOf (packFields f) = f := by
  obtain ⟨op, var, wsel, rd, rs1, rs2, rs3, rs4, va, vb, zero⟩ := f
  simp only [fieldsOf, packFields, Fields.mk.injEq]
  refine ⟨?_, ?_, ?_, ?_, ?_, ?_, ?_, ?_, ?_, ?_, ?_⟩ <;>
    · ext i hi
      simp only [BitVec.getElem_extractLsb', BitVec.getLsbD_append]
      interval_cases i <;> simp [BitVec.getLsbD_eq_getElem]

/-- `bits[hi:lo]` read by arithmetic is the extracted field. -/
theorem bitsOf_eq_extractLsb' (w : CmdWord) (hi lo : Nat) : bitsOf w hi lo = (w.extractLsb' lo (hi - lo + 1)).toNat := by
  rw [bitsOf, BitVec.extractLsb'_toNat, Nat.shiftRight_eq_div_pow]

/-- Packing the fields read from a word gives the word. -/
theorem packFields_fieldsOf (w : CmdWord) : packFields (fieldsOf w) = w := by
  ext i hi
  simp only [fieldsOf, packFields]
  rw [← BitVec.getLsbD_eq_getElem, ← BitVec.getLsbD_eq_getElem]
  simp only [BitVec.getLsbD_append, BitVec.getLsbD_extractLsb']
  interval_cases i <;> simp

end Sys2Proof
end

