-- ==== Sys2Proof/Laws/Memory.lean ====
section
/-! SUPPORT. The laws of `MEM`: a byte read back is the byte written, no other byte changes, and a write keeps the
canonical form (20_memory.md R41, R51). -/

namespace Sys2Proof.Machine.Memory

/-- A byte that no entry lists reads as the fixed byte of log 3. -/
theorem read_of_not_listed {m : Memory} {a : Nat} (h : ∀ c ∈ m, c.1 ≠ a) : m.read a = Config.unlistedByte := by
  induction m with
  | nil => rfl
  | cons c m ih =>
    obtain ⟨a', b'⟩ := c
    have hne : a ≠ a' := fun e => h (a', b') (by simp) e.symm
    simp only [read, hne, if_false]
    exact ih fun c hc => h c (by simp [hc])

/-- A write changes no other byte (20_memory.md R51). -/
theorem read_write_other {m : Memory} {a c : Nat} (b : Byte) (h : c ≠ a) : (m.write a b).read c = m.read c := by
  induction m with
  | nil => by_cases hb : b = Config.unlistedByte <;> simp [write, read, hb, h]
  | cons p m ih =>
    obtain ⟨a', b'⟩ := p
    simp only [write]
    split
    · split <;> simp [read, h]
    · split
      · next heq => subst heq; split <;> simp [read, h]
      · simp only [read, ih]

/-- A byte written is read back (20_memory.md R51). -/
theorem read_write_same {m : Memory} (hm : m.wf) (a : Nat) (b : Byte) : (m.write a b).read a = b := by
  induction m with
  | nil => by_cases hb : b = Config.unlistedByte <;> simp [write, read, hb]
  | cons p m ih =>
    obtain ⟨a', b'⟩ := p
    obtain ⟨hp, hn⟩ := hm
    rw [List.pairwise_cons] at hp
    have hlist : a ≤ a' → Memory.read m a = Config.unlistedByte := fun hle =>
      read_of_not_listed fun c hc => by have := hp.1 c hc; simp only at this; omega
    simp only [write]
    split
    · next hlt =>
      split
      · next hb => simp only [read, Nat.ne_of_lt hlt, if_false, hlist (Nat.le_of_lt hlt), hb]
      · simp [read]
    · split
      · next heq =>
        subst heq
        split
        · next hb => rw [hlist (Nat.le_refl _), hb]
        · simp [read]
      · next hne =>
        simp only [read, hne, if_false]
        exact ih ⟨hp.2, fun c hc => hn c (by simp [hc])⟩

/-- The entries of a written memory are old ones or the one written. -/
theorem mem_write {m : Memory} {a : Nat} {b : Byte} {c : Host.Cell} (h : c ∈ m.write a b) :
    c ∈ m ∨ (c = (a, b) ∧ b ≠ Config.unlistedByte) := by
  induction m with
  | nil =>
    by_cases hb : b = Config.unlistedByte
    · simp [write, hb] at h
    · simp only [write, hb, if_false, List.mem_singleton] at h; exact .inr ⟨h, hb⟩
  | cons p m ih =>
    obtain ⟨a', b'⟩ := p
    simp only [write] at h
    split at h
    · split at h
      · exact .inl h
      · next hb =>
        rcases List.mem_cons.mp h with h | h
        · exact .inr ⟨h, hb⟩
        · exact .inl h
    · split at h
      · split at h
        · exact .inl (by simp [h])
        · next hb =>
          rcases List.mem_cons.mp h with h | h
          · exact .inr ⟨h, hb⟩
          · exact .inl (by simp [h])
      · rcases List.mem_cons.mp h with h | h
        · exact .inl (by simp [h])
        · rcases ih h with h | h
          · exact .inl (by simp [h])
          · exact .inr h

/-- A write keeps the canonical form. -/
theorem write_wf {m : Memory} (hm : m.wf) (a : Nat) (b : Byte) : (m.write a b).wf := by
  refine ⟨?_, fun c hc => ?_⟩
  · induction m with
    | nil => by_cases hb : b = Config.unlistedByte <;> simp [write, hb]
    | cons p m ih =>
      obtain ⟨a', b'⟩ := p
      obtain ⟨hp, hn⟩ := hm
      have hp' := List.pairwise_cons.mp hp
      simp only [write]
      split
      · next hlt =>
        split
        · exact hp
        · refine List.pairwise_cons.mpr ⟨fun c hc => ?_, hp⟩
          rcases List.mem_cons.mp hc with rfl | hc
          · exact hlt
          · exact Nat.lt_trans hlt (hp'.1 c hc)
      · split
        · next heq =>
          subst heq
          split
          · exact hp'.2
          · exact List.pairwise_cons.mpr ⟨hp'.1, hp'.2⟩
        · refine List.pairwise_cons.mpr ⟨fun c hc => ?_, ih ⟨hp'.2, fun c hc => hn c (by simp [hc])⟩⟩
          rcases mem_write hc with hc | ⟨rfl, -⟩
          · exact hp'.1 c hc
          · simp only; omega
  · rcases mem_write hc with hc | ⟨rfl, hb⟩
    · exact hm.2 c hc
    · exact hb

/-- A write inside `MEM` lists nothing outside it. -/
theorem write_inside {m : Memory} {n a : Nat} (hm : ∀ c ∈ m, c.1 < n) (ha : a < n) (b : Byte) :
    ∀ c ∈ m.write a b, c.1 < n := fun c hc => by
  rcases mem_write hc with hc | ⟨rfl, -⟩
  · exact hm c hc
  · exact ha

/-- The empty memory has the canonical form. -/
theorem nil_wf : Memory.wf [] := by simp [wf]

/-- A bulk fill is made of writes, so whatever every write keeps, a fill keeps (43_bit_view.md R148). -/
theorem fill_induction {P : Memory → Prop} {base : Nat} {f : Bool} {plan : List (Nat × Nat)}
    (hw : ∀ m e b, e ∈ plan → P m → P (m.write (base + e.1) b)) :
    ∀ p : Bus, P p.mem → P (plan.foldl (fillByte base f) p).mem := by
  induction plan with
  | nil => exact fun p hp => hp
  | cons e plan ih =>
    intro p hp
    refine ih (fun m e' b he => hw m e' b (List.mem_cons_of_mem _ he)) _ ?_
    unfold fillByte
    split <;> exact hw _ e _ (by simp) hp

/-- A bulk fill keeps the canonical form. -/
theorem fill_wf {m : Memory} (hm : m.wf) (d : ViewDesc) (f : Bool) : (fillBus d f m).mem.wf :=
  fill_induction (P := fun m => m.wf) (fun _ _ b _ h => write_wf h _ b) _ hm

end Sys2Proof.Machine.Memory
end

