-- ==== Sys2Proof/Laws/Fill.lean ====
section
/-! SUPPORT. What one entry of a fill plan does, and what a whole plan does (43_bit_view.md R148). -/

namespace Sys2Proof.Machine

/-- The byte an entry of a fill plan with mask `e` leaves where `b` stood. -/
def filledByte (f : Bool) (e : Nat) (b : Byte) : Byte :=
  if e = 0xFF then (if f then 0xFF else 0x00)
  else BitVec.ofNat 8 (if f then b.toNat ||| e else b.toNat &&& compl 8 e)

/-- The accesses of an entry that writes `b`: a fully covered byte is not read. -/
def entryAccesses (a e : Nat) (b : Byte) : List Access := (if e = 0xFF then [] else [.load a]) ++ [.store a b]

/-- An entry of a fill plan: one byte changes, by its mask. -/
theorem fillByte_eq (base : Nat) (f : Bool) (p : Bus) (e : Nat × Nat) :
    fillByte base f p e =
      { mem := p.mem.write (base + e.1) (filledByte f e.2 (p.mem.read (base + e.1)))
        trace := p.trace ++ entryAccesses (base + e.1) e.2 (filledByte f e.2 (p.mem.read (base + e.1))) } := by
  rw [fillByte]
  by_cases h : e.2 = 0xFF
  · simp only [h, if_true, Bus.store, filledByte, entryAccesses, List.nil_append]
  · simp only [h, if_false, Bus.store, Bus.load, filledByte, entryAccesses, List.append_assoc]

/-- Under the mask the byte takes the fill bit, elsewhere it keeps its bits. -/
theorem getLsbD_filledByte (f : Bool) {e : Nat} (b : Byte) {j : Nat} (hj : j < 8) (he : e < 256) :
    (filledByte f e b).getLsbD j = if e.testBit j then f else b.getLsbD j := by
  have gb : ∀ n : Nat, (BitVec.ofNat 8 n).getLsbD j = n.testBit j := fun n => by
    rw [BitVec.getLsbD_ofNat]; simp [hj]
  by_cases h : e = 0xFF
  · subst h
    have ones : ∀ k < 8, (0xFF : Byte).getLsbD k = true ∧ (0x00 : Byte).getLsbD k = false ∧
        (255 : Nat).testBit k = true := by decide
    obtain ⟨h1, h0, h2⟩ := ones j hj
    rw [h2, if_pos rfl, filledByte, if_pos rfl]
    cases f
    · exact h0
    · exact h1
  · rw [filledByte, if_neg h, gb]
    cases f
    · simp only [Bool.false_eq_true, if_false, Nat.testBit_and, testBit_compl (show e < 2 ^ 8 from he),
        BitVec.testBit_toNat, hj, decide_true, Bool.true_and]
      cases e.testBit j <;> simp
    · simp only [if_true, Nat.testBit_or, BitVec.testBit_toNat]
      cases e.testBit j <;> simp

/-- A plan whose offsets rise: each of its bytes is changed once, no other byte is, and the accesses are those of its
entries in order. -/
theorem fillPlan_fold (base : Nat) (f : Bool) (plan : List (Nat × Nat)) :
    ∀ p : Bus, p.mem.wf → plan.Pairwise (fun a b => a.1 < b.1) →
      (∀ e ∈ plan, (plan.foldl (fillByte base f) p).mem.read (base + e.1) =
        filledByte f e.2 (p.mem.read (base + e.1))) ∧
      (∀ a, (∀ e ∈ plan, a ≠ base + e.1) → (plan.foldl (fillByte base f) p).mem.read a = p.mem.read a) ∧
      (plan.foldl (fillByte base f) p).trace = p.trace ++ plan.flatMap fun e =>
        entryAccesses (base + e.1) e.2 ((plan.foldl (fillByte base f) p).mem.read (base + e.1)) := by
  induction plan with
  | nil => intro p _ _; simp
  | cons x plan ih =>
    intro p hw hp
    rw [List.pairwise_cons] at hp
    have hw' : (fillByte base f p x).mem.wf := by rw [fillByte_eq]; exact Memory.write_wf hw _ _
    obtain ⟨i1, i2, i3⟩ := ih _ hw' hp.2
    rw [List.foldl_cons]
    have hx : (plan.foldl (fillByte base f) (fillByte base f p x)).mem.read (base + x.1) =
        filledByte f x.2 (p.mem.read (base + x.1)) := by
      rw [i2 _ (fun e he => by have := hp.1 e he; omega), fillByte_eq, Memory.read_write_same hw]
    refine ⟨fun e he => ?_, fun a ha => ?_, ?_⟩
    · rcases List.mem_cons.mp he with rfl | he
      · exact hx
      · rw [i1 e he, fillByte_eq, Memory.read_write_other]; have := hp.1 e he; omega
    · rw [i2 a (fun e he => ha e (List.mem_cons_of_mem _ he)), fillByte_eq, Memory.read_write_other]
      exact ha x (List.mem_cons_self ..)
    · rw [i3, List.flatMap_cons, hx, fillByte_eq]; simp only [List.append_assoc]

end Sys2Proof.Machine
end

