-- ==== Sys2Proof/Laws/State.lean ====
section
/-! SUPPORT. What each update of the state leaves in each field: one lemma per field per update, so that no proof unfolds
a record update. -/

namespace Sys2Proof.Machine.State

@[simp] theorem setX_x (s : State) (r : Reg) (w : Xword) : (s.setX r w).x = s.x.set r w := rfl
@[simp] theorem setX_v (s : State) (r : Reg) (w : Xword) : (s.setX r w).v = s.v := rfl
@[simp] theorem setX_status (s : State) (r : Reg) (w : Xword) : (s.setX r w).status = s.status := rfl
@[simp] theorem setX_mem (s : State) (r : Reg) (w : Xword) : (s.setX r w).mem = s.mem := rfl
@[simp] theorem setX_memBytes (s : State) (r : Reg) (w : Xword) : (s.setX r w).memBytes = s.memBytes := rfl
@[simp] theorem setX_inputs (s : State) (r : Reg) (w : Xword) : (s.setX r w).inputs = s.inputs := rfl
@[simp] theorem setX_index (s : State) (r : Reg) (w : Xword) : (s.setX r w).index = s.index := rfl
@[simp] theorem setX_reply (s : State) (r : Reg) (w : Xword) : (s.setX r w).reply = s.reply := rfl
@[simp] theorem setX_trace (s : State) (r : Reg) (w : Xword) : (s.setX r w).trace = s.trace := rfl
@[simp] theorem setX_draws (s : State) (r : Reg) (w : Xword) : (s.setX r w).draws = s.draws := rfl

@[simp] theorem setView_x (s : State) (k : ViewIdx) (d : ViewDesc) : (s.setView k d).x = s.x := rfl
@[simp] theorem setView_v (s : State) (k : ViewIdx) (d : ViewDesc) : (s.setView k d).v = s.v.set k d := rfl
@[simp] theorem setView_status (s : State) (k : ViewIdx) (d : ViewDesc) : (s.setView k d).status = s.status := rfl
@[simp] theorem setView_mem (s : State) (k : ViewIdx) (d : ViewDesc) : (s.setView k d).mem = s.mem := rfl
@[simp] theorem setView_memBytes (s : State) (k : ViewIdx) (d : ViewDesc) : (s.setView k d).memBytes = s.memBytes := rfl
@[simp] theorem setView_inputs (s : State) (k : ViewIdx) (d : ViewDesc) : (s.setView k d).inputs = s.inputs := rfl
@[simp] theorem setView_index (s : State) (k : ViewIdx) (d : ViewDesc) : (s.setView k d).index = s.index := rfl
@[simp] theorem setView_reply (s : State) (k : ViewIdx) (d : ViewDesc) : (s.setView k d).reply = s.reply := rfl
@[simp] theorem setView_trace (s : State) (k : ViewIdx) (d : ViewDesc) : (s.setView k d).trace = s.trace := rfl
@[simp] theorem setView_draws (s : State) (k : ViewIdx) (d : ViewDesc) : (s.setView k d).draws = s.draws := rfl

@[simp] theorem setMem_x (s : State) (m : Memory) : (s.setMem m).x = s.x := rfl
@[simp] theorem setMem_v (s : State) (m : Memory) : (s.setMem m).v = s.v := rfl
@[simp] theorem setMem_status (s : State) (m : Memory) : (s.setMem m).status = s.status := rfl
@[simp] theorem setMem_mem (s : State) (m : Memory) : (s.setMem m).mem = m := rfl
@[simp] theorem setMem_memBytes (s : State) (m : Memory) : (s.setMem m).memBytes = s.memBytes := rfl
@[simp] theorem setMem_inputs (s : State) (m : Memory) : (s.setMem m).inputs = s.inputs := rfl
@[simp] theorem setMem_index (s : State) (m : Memory) : (s.setMem m).index = s.index := rfl
@[simp] theorem setMem_reply (s : State) (m : Memory) : (s.setMem m).reply = s.reply := rfl
@[simp] theorem setMem_trace (s : State) (m : Memory) : (s.setMem m).trace = s.trace := rfl
@[simp] theorem setMem_draws (s : State) (m : Memory) : (s.setMem m).draws = s.draws := rfl

@[simp] theorem drawn_x (s : State) : (s.drawn).x = s.x := rfl
@[simp] theorem drawn_v (s : State) : (s.drawn).v = s.v := rfl
@[simp] theorem drawn_status (s : State) : (s.drawn).status = s.status := rfl
@[simp] theorem drawn_mem (s : State) : (s.drawn).mem = s.mem := rfl
@[simp] theorem drawn_memBytes (s : State) : (s.drawn).memBytes = s.memBytes := rfl
@[simp] theorem drawn_inputs (s : State) : (s.drawn).inputs = s.inputs := rfl
@[simp] theorem drawn_index (s : State) : (s.drawn).index = s.index := rfl
@[simp] theorem drawn_reply (s : State) : (s.drawn).reply = s.reply := rfl
@[simp] theorem drawn_trace (s : State) : (s.drawn).trace = s.trace := rfl
@[simp] theorem drawn_draws (s : State) : (s.drawn).draws = s.draws + 1 := rfl

@[simp] theorem complete_x (s : State) (c : Condition) (l : List Access) : (s.complete c l).x = s.x := rfl
@[simp] theorem complete_v (s : State) (c : Condition) (l : List Access) : (s.complete c l).v = s.v := rfl
@[simp] theorem complete_status (s : State) (c : Condition) (l : List Access) : (s.complete c l).status = statusWord c.code := rfl
@[simp] theorem complete_mem (s : State) (c : Condition) (l : List Access) : (s.complete c l).mem = s.mem := rfl
@[simp] theorem complete_memBytes (s : State) (c : Condition) (l : List Access) : (s.complete c l).memBytes = s.memBytes := rfl
@[simp] theorem complete_inputs (s : State) (c : Condition) (l : List Access) : (s.complete c l).inputs = s.inputs := rfl
@[simp] theorem complete_index (s : State) (c : Condition) (l : List Access) : (s.complete c l).index = s.index := rfl
@[simp] theorem complete_reply (s : State) (c : Condition) (l : List Access) : (s.complete c l).reply = .response c.code := rfl
@[simp] theorem complete_trace (s : State) (c : Condition) (l : List Access) : (s.complete c l).trace = l := rfl
@[simp] theorem complete_draws (s : State) (c : Condition) (l : List Access) : (s.complete c l).draws = s.draws := rfl

@[simp] theorem raise_x (s : State) (c : Condition) : (s.raise c).x = s.x := rfl
@[simp] theorem raise_v (s : State) (c : Condition) : (s.raise c).v = s.v := rfl
@[simp] theorem raise_status (s : State) (c : Condition) : (s.raise c).status = statusWord c.code := rfl
@[simp] theorem raise_mem (s : State) (c : Condition) : (s.raise c).mem = s.mem := rfl
@[simp] theorem raise_memBytes (s : State) (c : Condition) : (s.raise c).memBytes = s.memBytes := rfl
@[simp] theorem raise_inputs (s : State) (c : Condition) : (s.raise c).inputs = s.inputs := rfl
@[simp] theorem raise_index (s : State) (c : Condition) : (s.raise c).index = s.index := rfl
@[simp] theorem raise_reply (s : State) (c : Condition) : (s.raise c).reply = .response c.code := rfl
@[simp] theorem raise_trace (s : State) (c : Condition) : (s.raise c).trace = [] := rfl
@[simp] theorem raise_draws (s : State) (c : Condition) : (s.raise c).draws = s.draws := rfl

@[simp] theorem finish_x (s : State) (rd : Reg) (n : Nat) : (s.finish rd n).x = s.x.set rd (BitVec.ofNat 64 n) := rfl
@[simp] theorem finish_v (s : State) (rd : Reg) (n : Nat) : (s.finish rd n).v = s.v := rfl
@[simp] theorem finish_status (s : State) (rd : Reg) (n : Nat) : (s.finish rd n).status = statusWord 0 := rfl
@[simp] theorem finish_mem (s : State) (rd : Reg) (n : Nat) : (s.finish rd n).mem = s.mem := rfl
@[simp] theorem finish_memBytes (s : State) (rd : Reg) (n : Nat) : (s.finish rd n).memBytes = s.memBytes := rfl
@[simp] theorem finish_inputs (s : State) (rd : Reg) (n : Nat) : (s.finish rd n).inputs = s.inputs := rfl
@[simp] theorem finish_index (s : State) (rd : Reg) (n : Nat) : (s.finish rd n).index = s.index := rfl
@[simp] theorem finish_reply (s : State) (rd : Reg) (n : Nat) : (s.finish rd n).reply = .response 0 := rfl
@[simp] theorem finish_trace (s : State) (rd : Reg) (n : Nat) : (s.finish rd n).trace = [] := rfl
@[simp] theorem finish_draws (s : State) (rd : Reg) (n : Nat) : (s.finish rd n).draws = s.draws := rfl

@[simp] theorem finishAny_x (s : State) (rd : Reg) : (s.finishAny rd).x = s.x.set rd (Config.anyValue s.draws) := rfl
@[simp] theorem finishAny_v (s : State) (rd : Reg) : (s.finishAny rd).v = s.v := rfl
@[simp] theorem finishAny_status (s : State) (rd : Reg) : (s.finishAny rd).status = statusWord 0 := rfl
@[simp] theorem finishAny_mem (s : State) (rd : Reg) : (s.finishAny rd).mem = s.mem := rfl
@[simp] theorem finishAny_memBytes (s : State) (rd : Reg) : (s.finishAny rd).memBytes = s.memBytes := rfl
@[simp] theorem finishAny_inputs (s : State) (rd : Reg) : (s.finishAny rd).inputs = s.inputs := rfl
@[simp] theorem finishAny_index (s : State) (rd : Reg) : (s.finishAny rd).index = s.index := rfl
@[simp] theorem finishAny_reply (s : State) (rd : Reg) : (s.finishAny rd).reply = .response 0 := rfl
@[simp] theorem finishAny_trace (s : State) (rd : Reg) : (s.finishAny rd).trace = [] := rfl
@[simp] theorem finishAny_draws (s : State) (rd : Reg) : (s.finishAny rd).draws = s.draws + 1 := rfl

@[simp] theorem answer_x (s : State) (w : Xword) : (s.answer w).x = s.x := rfl
@[simp] theorem answer_v (s : State) (w : Xword) : (s.answer w).v = s.v := rfl
@[simp] theorem answer_status (s : State) (w : Xword) : (s.answer w).status = s.status := rfl
@[simp] theorem answer_mem (s : State) (w : Xword) : (s.answer w).mem = s.mem := rfl
@[simp] theorem answer_memBytes (s : State) (w : Xword) : (s.answer w).memBytes = s.memBytes := rfl
@[simp] theorem answer_inputs (s : State) (w : Xword) : (s.answer w).inputs = s.inputs := rfl
@[simp] theorem answer_index (s : State) (w : Xword) : (s.answer w).index = s.index := rfl
@[simp] theorem answer_reply (s : State) (w : Xword) : (s.answer w).reply = .data w := rfl
@[simp] theorem answer_trace (s : State) (w : Xword) : (s.answer w).trace = s.trace := rfl
@[simp] theorem answer_draws (s : State) (w : Xword) : (s.answer w).draws = s.draws := rfl

@[simp] theorem assertReset_x (s : State) : (s.assertReset).x = Vector.ofFn fun i => Config.anyValue (s.draws + i.val) := rfl
@[simp] theorem assertReset_v (s : State) : (s.assertReset).v = Vector.replicate 4 ViewDesc.default := rfl
@[simp] theorem assertReset_status (s : State) : (s.assertReset).status = 0 := rfl
@[simp] theorem assertReset_mem (s : State) : (s.assertReset).mem = s.mem := rfl
@[simp] theorem assertReset_memBytes (s : State) : (s.assertReset).memBytes = s.memBytes := rfl
@[simp] theorem assertReset_inputs (s : State) : (s.assertReset).inputs = s.inputs := rfl
@[simp] theorem assertReset_index (s : State) : (s.assertReset).index = s.index := rfl
@[simp] theorem assertReset_reply (s : State) : (s.assertReset).reply = .quiet := rfl
@[simp] theorem assertReset_trace (s : State) : (s.assertReset).trace = [] := rfl
@[simp] theorem assertReset_draws (s : State) : (s.assertReset).draws = s.draws + 8 := rfl

@[simp] theorem advance_x (s : State) (l : List HostAction) : (s.advance l).x = s.x := rfl
@[simp] theorem advance_v (s : State) (l : List HostAction) : (s.advance l).v = s.v := rfl
@[simp] theorem advance_status (s : State) (l : List HostAction) : (s.advance l).status = s.status := rfl
@[simp] theorem advance_mem (s : State) (l : List HostAction) : (s.advance l).mem = s.mem := rfl
@[simp] theorem advance_memBytes (s : State) (l : List HostAction) : (s.advance l).memBytes = s.memBytes := rfl
@[simp] theorem advance_inputs (s : State) (l : List HostAction) : (s.advance l).inputs = l := rfl
@[simp] theorem advance_index (s : State) (l : List HostAction) : (s.advance l).index = s.index + 1 := rfl
@[simp] theorem advance_reply (s : State) (l : List HostAction) : (s.advance l).reply = s.reply := rfl
@[simp] theorem advance_trace (s : State) (l : List HostAction) : (s.advance l).trace = s.trace := rfl
@[simp] theorem advance_draws (s : State) (l : List HostAction) : (s.advance l).draws = s.draws := rfl

/-- A register read after a register write. -/
theorem setX_get (s : State) (r q : Reg) (w : Xword) : (s.setX r w).x[q] = if r = q then w else s.x[q] := by
  simp only [setX_x, Fin.getElem_fin, Vector.getElem_set, Fin.val_inj]

/-- A descriptor read after a descriptor write. -/
theorem setView_get (s : State) (k j : ViewIdx) (d : ViewDesc) :
    (s.setView k d).v[j] = if k = j then d else s.v[j] := by
  simp only [setView_v, Fin.getElem_fin, Vector.getElem_set, Fin.val_inj]

end Sys2Proof.Machine.State
end

