-- ==== Sys2Proof/Laws/Ops.lean ====
section
/-! SUPPORT. One lemma per shared operation that says everything it can do. -/

namespace Sys2Proof.Machine.State

/-- A read of one byte into `x[rd]` answers only for a byte of `MEM`. -/
theorem loadBit_next {s t : State} {rd : Reg} {a bit : Nat} (h : s.loadBit rd a bit = .next t) :
    a < s.memBytes.val ∧
      t = (s.setX rd (BitVec.ofNat 64 (readBit 8 (s.mem.read a).toNat bit))).complete .ok [.load a] := by
  unfold loadBit at h
  split at h
  · next ha => exact ⟨ha, (Host.Outcome.next.inj h).symm⟩
  · cases h

/-- A read-modify-write of one byte answers only for a byte of `MEM`. -/
theorem updateByte_next {s t : State} {a : Nat} {f : Nat → Nat} (h : s.updateByte a f = .next t) :
    a < s.memBytes.val ∧
      t = (s.setMem (s.mem.write a (BitVec.ofNat 8 (f (s.mem.read a).toNat)))).complete .ok
        [.load a, .store a (BitVec.ofNat 8 (f (s.mem.read a).toNat))] := by
  unfold updateByte at h
  split at h
  · next ha => exact ⟨ha, (Host.Outcome.next.inj h).symm⟩
  · cases h

/-- A bulk fill answers only for a view whose span is in `MEM`. -/
theorem fill_next {s t : State} {d : ViewDesc} {f : Bool} (h : s.fill d f = .next t) :
    s.spanInside d = true ∧
      t = (s.setMem (fillBus d f s.mem).mem).complete .ok (fillBus d f s.mem).trace := by
  unfold fill at h
  split at h
  · next ha => exact ⟨ha, (Host.Outcome.next.inj h).symm⟩
  · cases h

/-- A comparison of views: reads in the two spans, or no access when the lengths differ or are 0. -/
theorem compareViews_next {s t : State} {rd : Reg} {a b : ViewDesc} {r : Bool → Nat}
    (h : s.compareViews rd a b r = .next t) :
    (comparesBits a b = true ∧ s.spanInside a = true ∧ s.spanInside b = true ∧
        t = ((s.setX rd (BitVec.ofNat 64 (r (vieweq s.mem a b)))).drawn).complete .ok (eqReads a b s.draws)) ∨
      (comparesBits a b = false ∧ t = s.finish rd (r (vieweq s.mem a b))) := by
  unfold compareViews at h
  split at h
  · next hc =>
    split at h
    · next hs =>
      rw [Bool.and_eq_true] at hs
      exact .inl ⟨hc, hs.1, hs.2, (Host.Outcome.next.inj h).symm⟩
    · cases h
  · next hc => exact .inr ⟨by simpa using hc, (Host.Outcome.next.inj h).symm⟩

/-- The end of a construction: the condition, or the new descriptor in `v[vd]`, a draw taken only where the base does
not fit its field. -/
theorem putView_cases (s : State) (vd : ViewIdx) (o : Option Geometry) :
    (o = none ∧ s.putView vd o = s.raise .malformedGeometry) ∨
      (∃ g, o = some g ∧ g.base < 2 ^ 32 ∧ s.putView vd o = (s.setView vd (s.descOf g)).complete .ok []) ∨
      (∃ g, o = some g ∧ 2 ^ 32 ≤ g.base ∧
        s.putView vd o = ((s.setView vd (s.descOf g)).drawn).complete .ok []) := by
  cases o with
  | none => exact .inl ⟨rfl, rfl⟩
  | some g =>
    by_cases hb : g.base < 2 ^ 32
    · exact .inr (.inl ⟨g, rfl, hb, by simp only [putView, fitsBase, hb, decide_true, if_true]⟩)
    · exact .inr (.inr ⟨g, rfl, Nat.le_of_not_lt hb, by
        simp only [putView, fitsBase, hb, decide_false, Bool.false_eq_true, if_false]⟩)

/-- A bounded check: the condition and nothing else, or the raw value in `x[rd]`. -/
theorem checkBound_cases (s : State) (bound : Nat) (rd rs1 : Reg) :
    (bound < s.operand rs1 ∧ s.checkBound bound rd rs1 = s.raise .outOfRange) ∨
      (s.operand rs1 ≤ bound ∧ s.checkBound bound rd rs1 = s.finish rd (s.operand rs1)) := by
  by_cases h : s.operand rs1 > bound
  · exact .inl ⟨h, by simp only [checkBound, h, if_true]⟩
  · exact .inr ⟨Nat.le_of_not_lt h, by simp only [checkBound, h, if_false]⟩

end Sys2Proof.Machine.State

namespace Sys2Proof.Machine

/-- A construction succeeds exactly when the slice is inside `MEM` and the window inside the slice
(43_bit_view.md R140). -/
theorem construct_some {M b n st l : Nat} {g : Geometry} (h : construct M b n st l = some g) :
    b + n ≤ M ∧ st + l ≤ n * 8 ∧
      g = { base := b + (st >>> 3), nbytes := n - (st >>> 3), start := st &&& 7, length := l } := by
  unfold construct at h
  split at h
  · cases h
  · split at h
    · cases h
    · next h1 h2 => exact ⟨Nat.le_of_not_lt h1, Nat.le_of_not_lt h2, (Option.some.inj h).symm⟩

/-- A byte index is a quotient by 8 and a bit index a remainder (40_datapath_functions.md R80). -/
theorem split_eq (f : Nat) : split f = (f / 8, f % 8) := by
  simp only [split, Nat.shiftRight_eq_div_pow, Nat.and_two_pow_sub_one_eq_mod f 3, Nat.reducePow]

end Sys2Proof.Machine
end

