-- ==== Sys2Proof/Laws/PerInstr.lean ====
section
/-! SUPPORT. The per-instruction family: the word of every command hits the row of its own mnemonic
(30_encoding.md R65, R67). -/

namespace Sys2Proof

/-- Two packed words are combined field by field. -/
theorem packFields_and (f g : Fields) :
    packFields f &&& packFields g = packFields
      { op := f.op &&& g.op, var := f.var &&& g.var, wsel := f.wsel &&& g.wsel, rd := f.rd &&& g.rd,
        rs1 := f.rs1 &&& g.rs1, rs2 := f.rs2 &&& g.rs2, rs3 := f.rs3 &&& g.rs3, rs4 := f.rs4 &&& g.rs4,
        va := f.va &&& g.va, vb := f.vb &&& g.vb, zero := f.zero &&& g.zero } := by
  ext i hi
  simp only [packFields, BitVec.getElem_and]
  rw [← BitVec.getLsbD_eq_getElem, ← BitVec.getLsbD_eq_getElem, ← BitVec.getLsbD_eq_getElem]
  simp only [BitVec.getLsbD_append]
  interval_cases i <;> simp

/-- A row is hit by a word packed from fields when masking the fields gives the match's fields. -/
theorem Row.hits_pack {r : Row} {f : Fields}
    (h : packFields f &&& packFields (fieldsOf r.mask) = packFields (fieldsOf r.mtch)) :
    r.hits (packFields f) = true := by
  rw [packFields_fieldsOf, packFields_fieldsOf] at h
  simp [Row.hits, h]

namespace Laws.EncodedRow

/-- The word of the command hits a row of the opcode table that has the command's mnemonic. -/
def Statement (i : Instr) : Prop := ∃ r ∈ opcodeTable, r.mnemonic = i.mnemonic ∧ r.hits (encode i) = true

theorem rdbitC (w : Width) (rd : Reg) (rs1 : Reg) (rs2 : Reg) : Statement (.rdbitC w rd rs1 rs2) :=
  ⟨opcodeTable[0], List.getElem_mem (by decide), rfl, Row.hits_pack (by
    rw [packFields_and]; simp [fieldsOf, opcodeTable, scalarRows, bufferRows, viewRows, boundedRows, instrFields])⟩

theorem rdbitU (w : Width) (rd : Reg) (rs1 : Reg) (rs2 : Reg) : Statement (.rdbitU w rd rs1 rs2) :=
  ⟨opcodeTable[1], List.getElem_mem (by decide), rfl, Row.hits_pack (by
    rw [packFields_and]; simp [fieldsOf, opcodeTable, scalarRows, bufferRows, viewRows, boundedRows, instrFields])⟩

theorem rdbitF (w : Width) (rd : Reg) (rs1 : Reg) (rs2 : Reg) : Statement (.rdbitF w rd rs1 rs2) :=
  ⟨opcodeTable[2], List.getElem_mem (by decide), rfl, Row.hits_pack (by
    rw [packFields_and]; simp [fieldsOf, opcodeTable, scalarRows, bufferRows, viewRows, boundedRows, instrFields])⟩

theorem wrbitC (w : Width) (rd : Reg) (rs1 : Reg) (rs2 : Reg) (rs3 : Reg) : Statement (.wrbitC w rd rs1 rs2 rs3) :=
  ⟨opcodeTable[3], List.getElem_mem (by decide), rfl, Row.hits_pack (by
    rw [packFields_and]; simp [fieldsOf, opcodeTable, scalarRows, bufferRows, viewRows, boundedRows, instrFields])⟩

theorem wrbitU (w : Width) (rd : Reg) (rs1 : Reg) (rs2 : Reg) (rs3 : Reg) : Statement (.wrbitU w rd rs1 rs2 rs3) :=
  ⟨opcodeTable[4], List.getElem_mem (by decide), rfl, Row.hits_pack (by
    rw [packFields_and]; simp [fieldsOf, opcodeTable, scalarRows, bufferRows, viewRows, boundedRows, instrFields])⟩

theorem wrbitF (w : Width) (rd : Reg) (rs1 : Reg) (rs2 : Reg) (rs3 : Reg) : Statement (.wrbitF w rd rs1 rs2 rs3) :=
  ⟨opcodeTable[5], List.getElem_mem (by decide), rfl, Row.hits_pack (by
    rw [packFields_and]; simp [fieldsOf, opcodeTable, scalarRows, bufferRows, viewRows, boundedRows, instrFields])⟩

theorem setbitC (w : Width) (rd : Reg) (rs1 : Reg) (rs2 : Reg) : Statement (.setbitC w rd rs1 rs2) :=
  ⟨opcodeTable[6], List.getElem_mem (by decide), rfl, Row.hits_pack (by
    rw [packFields_and]; simp [fieldsOf, opcodeTable, scalarRows, bufferRows, viewRows, boundedRows, instrFields])⟩

theorem setbitU (w : Width) (rd : Reg) (rs1 : Reg) (rs2 : Reg) : Statement (.setbitU w rd rs1 rs2) :=
  ⟨opcodeTable[7], List.getElem_mem (by decide), rfl, Row.hits_pack (by
    rw [packFields_and]; simp [fieldsOf, opcodeTable, scalarRows, bufferRows, viewRows, boundedRows, instrFields])⟩

theorem setbitF (w : Width) (rd : Reg) (rs1 : Reg) (rs2 : Reg) : Statement (.setbitF w rd rs1 rs2) :=
  ⟨opcodeTable[8], List.getElem_mem (by decide), rfl, Row.hits_pack (by
    rw [packFields_and]; simp [fieldsOf, opcodeTable, scalarRows, bufferRows, viewRows, boundedRows, instrFields])⟩

theorem clrbitC (w : Width) (rd : Reg) (rs1 : Reg) (rs2 : Reg) : Statement (.clrbitC w rd rs1 rs2) :=
  ⟨opcodeTable[9], List.getElem_mem (by decide), rfl, Row.hits_pack (by
    rw [packFields_and]; simp [fieldsOf, opcodeTable, scalarRows, bufferRows, viewRows, boundedRows, instrFields])⟩

theorem clrbitU (w : Width) (rd : Reg) (rs1 : Reg) (rs2 : Reg) : Statement (.clrbitU w rd rs1 rs2) :=
  ⟨opcodeTable[10], List.getElem_mem (by decide), rfl, Row.hits_pack (by
    rw [packFields_and]; simp [fieldsOf, opcodeTable, scalarRows, bufferRows, viewRows, boundedRows, instrFields])⟩

theorem clrbitF (w : Width) (rd : Reg) (rs1 : Reg) (rs2 : Reg) : Statement (.clrbitF w rd rs1 rs2) :=
  ⟨opcodeTable[11], List.getElem_mem (by decide), rfl, Row.hits_pack (by
    rw [packFields_and]; simp [fieldsOf, opcodeTable, scalarRows, bufferRows, viewRows, boundedRows, instrFields])⟩

theorem tglbitC (w : Width) (rd : Reg) (rs1 : Reg) (rs2 : Reg) : Statement (.tglbitC w rd rs1 rs2) :=
  ⟨opcodeTable[12], List.getElem_mem (by decide), rfl, Row.hits_pack (by
    rw [packFields_and]; simp [fieldsOf, opcodeTable, scalarRows, bufferRows, viewRows, boundedRows, instrFields])⟩

theorem tglbitU (w : Width) (rd : Reg) (rs1 : Reg) (rs2 : Reg) : Statement (.tglbitU w rd rs1 rs2) :=
  ⟨opcodeTable[13], List.getElem_mem (by decide), rfl, Row.hits_pack (by
    rw [packFields_and]; simp [fieldsOf, opcodeTable, scalarRows, bufferRows, viewRows, boundedRows, instrFields])⟩

theorem tglbitF (w : Width) (rd : Reg) (rs1 : Reg) (rs2 : Reg) : Statement (.tglbitF w rd rs1 rs2) :=
  ⟨opcodeTable[14], List.getElem_mem (by decide), rfl, Row.hits_pack (by
    rw [packFields_and]; simp [fieldsOf, opcodeTable, scalarRows, bufferRows, viewRows, boundedRows, instrFields])⟩

theorem rdbitsC (w : Width) (rd : Reg) (rs1 : Reg) (rs2 : Reg) (rs3 : Reg) : Statement (.rdbitsC w rd rs1 rs2 rs3) :=
  ⟨opcodeTable[15], List.getElem_mem (by decide), rfl, Row.hits_pack (by
    rw [packFields_and]; simp [fieldsOf, opcodeTable, scalarRows, bufferRows, viewRows, boundedRows, instrFields])⟩

theorem rdbitsU (w : Width) (rd : Reg) (rs1 : Reg) (rs2 : Reg) (rs3 : Reg) : Statement (.rdbitsU w rd rs1 rs2 rs3) :=
  ⟨opcodeTable[16], List.getElem_mem (by decide), rfl, Row.hits_pack (by
    rw [packFields_and]; simp [fieldsOf, opcodeTable, scalarRows, bufferRows, viewRows, boundedRows, instrFields])⟩

theorem rdbitsF (w : Width) (rd : Reg) (rs1 : Reg) (rs2 : Reg) (rs3 : Reg) : Statement (.rdbitsF w rd rs1 rs2 rs3) :=
  ⟨opcodeTable[17], List.getElem_mem (by decide), rfl, Row.hits_pack (by
    rw [packFields_and]; simp [fieldsOf, opcodeTable, scalarRows, bufferRows, viewRows, boundedRows, instrFields])⟩

theorem wrbitsC (w : Width) (rd : Reg) (rs1 : Reg) (rs2 : Reg) (rs3 : Reg) (rs4 : Reg) : Statement (.wrbitsC w rd rs1 rs2 rs3 rs4) :=
  ⟨opcodeTable[18], List.getElem_mem (by decide), rfl, Row.hits_pack (by
    rw [packFields_and]; simp [fieldsOf, opcodeTable, scalarRows, bufferRows, viewRows, boundedRows, instrFields])⟩

theorem wrbitsU (w : Width) (rd : Reg) (rs1 : Reg) (rs2 : Reg) (rs3 : Reg) (rs4 : Reg) : Statement (.wrbitsU w rd rs1 rs2 rs3 rs4) :=
  ⟨opcodeTable[19], List.getElem_mem (by decide), rfl, Row.hits_pack (by
    rw [packFields_and]; simp [fieldsOf, opcodeTable, scalarRows, bufferRows, viewRows, boundedRows, instrFields])⟩

theorem wrbitsF (w : Width) (rd : Reg) (rs1 : Reg) (rs2 : Reg) (rs3 : Reg) (rs4 : Reg) : Statement (.wrbitsF w rd rs1 rs2 rs3 rs4) :=
  ⟨opcodeTable[20], List.getElem_mem (by decide), rfl, Row.hits_pack (by
    rw [packFields_and]; simp [fieldsOf, opcodeTable, scalarRows, bufferRows, viewRows, boundedRows, instrFields])⟩

theorem bget (rd : Reg) (rs1 : Reg) : Statement (.bget rd rs1) :=
  ⟨opcodeTable[21], List.getElem_mem (by decide), rfl, Row.hits_pack (by
    rw [packFields_and]; simp [fieldsOf, opcodeTable, scalarRows, bufferRows, viewRows, boundedRows, instrFields])⟩

theorem bset (rs1 : Reg) : Statement (.bset rs1) :=
  ⟨opcodeTable[22], List.getElem_mem (by decide), rfl, Row.hits_pack (by
    rw [packFields_and]; simp [fieldsOf, opcodeTable, scalarRows, bufferRows, viewRows, boundedRows, instrFields])⟩

theorem bclr (rs1 : Reg) : Statement (.bclr rs1) :=
  ⟨opcodeTable[23], List.getElem_mem (by decide), rfl, Row.hits_pack (by
    rw [packFields_and]; simp [fieldsOf, opcodeTable, scalarRows, bufferRows, viewRows, boundedRows, instrFields])⟩

theorem bwr (rs1 : Reg) (rs2 : Reg) : Statement (.bwr rs1 rs2) :=
  ⟨opcodeTable[24], List.getElem_mem (by decide), rfl, Row.hits_pack (by
    rw [packFields_and]; simp [fieldsOf, opcodeTable, scalarRows, bufferRows, viewRows, boundedRows, instrFields])⟩

theorem bwrbits (rs1 : Reg) (rs2 : Reg) (rs3 : Reg) : Statement (.bwrbits rs1 rs2 rs3) :=
  ⟨opcodeTable[25], List.getElem_mem (by decide), rfl, Row.hits_pack (by
    rw [packFields_and]; simp [fieldsOf, opcodeTable, scalarRows, bufferRows, viewRows, boundedRows, instrFields])⟩

theorem vnew (vd : ViewIdx) (rs1 : Reg) (rs2 : Reg) : Statement (.vnew vd rs1 rs2) :=
  ⟨opcodeTable[26], List.getElem_mem (by decide), rfl, Row.hits_pack (by
    rw [packFields_and]; simp [fieldsOf, opcodeTable, scalarRows, bufferRows, viewRows, boundedRows, instrFields])⟩

theorem vnews (vd : ViewIdx) (rs1 : Reg) (rs2 : Reg) (rs3 : Reg) : Statement (.vnews vd rs1 rs2 rs3) :=
  ⟨opcodeTable[27], List.getElem_mem (by decide), rfl, Row.hits_pack (by
    rw [packFields_and]; simp [fieldsOf, opcodeTable, scalarRows, bufferRows, viewRows, boundedRows, instrFields])⟩

theorem vnewsl (vd : ViewIdx) (rs1 : Reg) (rs2 : Reg) (rs3 : Reg) (rs4 : Reg) : Statement (.vnewsl vd rs1 rs2 rs3 rs4) :=
  ⟨opcodeTable[28], List.getElem_mem (by decide), rfl, Row.hits_pack (by
    rw [packFields_and]; simp [fieldsOf, opcodeTable, scalarRows, bufferRows, viewRows, boundedRows, instrFields])⟩

theorem vget (rd : Reg) (va : ViewIdx) (rs1 : Reg) : Statement (.vget rd va rs1) :=
  ⟨opcodeTable[29], List.getElem_mem (by decide), rfl, Row.hits_pack (by
    rw [packFields_and]; simp [fieldsOf, opcodeTable, scalarRows, bufferRows, viewRows, boundedRows, instrFields])⟩

theorem vput (va : ViewIdx) (rs1 : Reg) (rs2 : Reg) : Statement (.vput va rs1 rs2) :=
  ⟨opcodeTable[30], List.getElem_mem (by decide), rfl, Row.hits_pack (by
    rw [packFields_and]; simp [fieldsOf, opcodeTable, scalarRows, bufferRows, viewRows, boundedRows, instrFields])⟩

theorem vlen (rd : Reg) (va : ViewIdx) : Statement (.vlen rd va) :=
  ⟨opcodeTable[31], List.getElem_mem (by decide), rfl, Row.hits_pack (by
    rw [packFields_and]; simp [fieldsOf, opcodeTable, scalarRows, bufferRows, viewRows, boundedRows, instrFields])⟩

theorem vempty (rd : Reg) (va : ViewIdx) : Statement (.vempty rd va) :=
  ⟨opcodeTable[32], List.getElem_mem (by decide), rfl, Row.hits_pack (by
    rw [packFields_and]; simp [fieldsOf, opcodeTable, scalarRows, bufferRows, viewRows, boundedRows, instrFields])⟩

theorem vclr (va : ViewIdx) : Statement (.vclr va) :=
  ⟨opcodeTable[33], List.getElem_mem (by decide), rfl, Row.hits_pack (by
    rw [packFields_and]; simp [fieldsOf, opcodeTable, scalarRows, bufferRows, viewRows, boundedRows, instrFields])⟩

theorem vset (va : ViewIdx) : Statement (.vset va) :=
  ⟨opcodeTable[34], List.getElem_mem (by decide), rfl, Row.hits_pack (by
    rw [packFields_and]; simp [fieldsOf, opcodeTable, scalarRows, bufferRows, viewRows, boundedRows, instrFields])⟩

theorem vfill (va : ViewIdx) (rs1 : Reg) : Statement (.vfill va rs1) :=
  ⟨opcodeTable[35], List.getElem_mem (by decide), rfl, Row.hits_pack (by
    rw [packFields_and]; simp [fieldsOf, opcodeTable, scalarRows, bufferRows, viewRows, boundedRows, instrFields])⟩

theorem veq (rd : Reg) (va : ViewIdx) (vb : ViewIdx) : Statement (.veq rd va vb) :=
  ⟨opcodeTable[36], List.getElem_mem (by decide), rfl, Row.hits_pack (by
    rw [packFields_and]; simp [fieldsOf, opcodeTable, scalarRows, bufferRows, viewRows, boundedRows, instrFields])⟩

theorem vne (rd : Reg) (va : ViewIdx) (vb : ViewIdx) : Statement (.vne rd va vb) :=
  ⟨opcodeTable[37], List.getElem_mem (by decide), rfl, Row.hits_pack (by
    rw [packFields_and]; simp [fieldsOf, opcodeTable, scalarRows, bufferRows, viewRows, boundedRows, instrFields])⟩

theorem vequals (rd : Reg) (va : ViewIdx) (vb : ViewIdx) : Statement (.vequals rd va vb) :=
  ⟨opcodeTable[38], List.getElem_mem (by decide), rfl, Row.hits_pack (by
    rw [packFields_and]; simp [fieldsOf, opcodeTable, scalarRows, bufferRows, viewRows, boundedRows, instrFields])⟩

theorem vhash (rd : Reg) (va : ViewIdx) : Statement (.vhash rd va) :=
  ⟨opcodeTable[39], List.getElem_mem (by decide), rfl, Row.hits_pack (by
    rw [packFields_and]; simp [fieldsOf, opcodeTable, scalarRows, bufferRows, viewRows, boundedRows, instrFields])⟩

theorem chk3 (rd : Reg) (rs1 : Reg) : Statement (.chk3 rd rs1) :=
  ⟨opcodeTable[40], List.getElem_mem (by decide), rfl, Row.hits_pack (by
    rw [packFields_and]; simp [fieldsOf, opcodeTable, scalarRows, bufferRows, viewRows, boundedRows, instrFields])⟩

theorem chk1 (rd : Reg) (rs1 : Reg) : Statement (.chk1 rd rs1) :=
  ⟨opcodeTable[41], List.getElem_mem (by decide), rfl, Row.hits_pack (by
    rw [packFields_and]; simp [fieldsOf, opcodeTable, scalarRows, bufferRows, viewRows, boundedRows, instrFields])⟩

theorem chk2 (rd : Reg) (rs1 : Reg) : Statement (.chk2 rd rs1) :=
  ⟨opcodeTable[42], List.getElem_mem (by decide), rfl, Row.hits_pack (by
    rw [packFields_and]; simp [fieldsOf, opcodeTable, scalarRows, bufferRows, viewRows, boundedRows, instrFields])⟩

end Laws.EncodedRow

end Sys2Proof
end

