-- ==== Sys2Proof/Tests/Slice0.lean ====
section
/-! SUPPORT. The model's own tests. A test's name ends with the vector of spec/95_test_vectors.md its expected values are
from; a decoding test's word is written out from the field layout of 30_encoding.md R60 and the match column of R67, every
operand field with a value of its own (`rd` 5, `rs1` 3, `rs2` 6, `rs3` 1, `rs4` 7, `va` 2, `vb` 1). Every witness shows a state and operands that meet the
hypotheses of the statement it names, one for each clause. -/

open Sys2Proof Sys2Proof.Machine Sys2Proof.Claims

namespace Sys2Proof.Tests

/-! ### Small states -/

/-- Registers from a list of numbers, 0 beyond it. -/
def regs (l : List Nat) : Vector Xword 8 := .ofFn fun i => BitVec.ofNat 64 (l.getD i.val 0)

/-- Memory from its first bytes. -/
def bytes (l : List Nat) : Memory := l.zipIdx.foldl (fun m p => m.write p.2 (BitVec.ofNat 8 p.1)) []

/-- A descriptor from its four numbers. -/
def view (base nbytes start length : Nat) : ViewDesc :=
  ⟨BitVec.ofNat 32 base, BitVec.ofNat 33 nbytes, BitVec.ofNat 3 start, BitVec.ofNat 36 length⟩

/-- A state with these registers, exactly these bytes of memory and these two descriptors. -/
def small (x mem : List Nat) (v0 v1 : ViewDesc := .default) : State :=
  { State.resetWith (Fin.ofNat _ mem.length) with
    x := regs x, mem := bytes mem, v := #v[v0, v1, .default, .default] }

/-- The code and `x[4]` after a command. -/
def codeAndX4 : Result → Option (Nat × Nat)
  | .next t => some (t.statusCode.toNat, (t.x[4]).toNat)
  | _ => none

/-- The code and the bytes of memory after a command. -/
def codeAndMem : Result → Option (Nat × List Nat)
  | .next t => some (t.statusCode.toNat, (List.range t.memBytes.val).map fun a => (t.mem.read a).toNat)
  | _ => none

/-- The code and `v[1]` after a command. -/
def codeAndV1 : Result → Option (Nat × ViewDesc)
  | .next t => some (t.statusCode.toNat, t.v[1])
  | _ => none

/-! ### Decoding of every command -/

theorem test_decode_rdbitC : decode 0x042BC000 = .command (.rdbitC .w8 5 3 6) := by decide
theorem test_decode_rdbitU : decode 0x056BC000 = .command (.rdbitU .w16 5 3 6) := by decide
theorem test_decode_rdbitF : decode 0x06ABC000 = .command (.rdbitF .w32 5 3 6) := by decide
theorem test_decode_wrbitC : decode 0x08EBC400 = .command (.wrbitC .w64 5 3 6 1) := by decide
theorem test_decode_wrbitU : decode 0x092BC400 = .command (.wrbitU .w8 5 3 6 1) := by decide
theorem test_decode_wrbitF : decode 0x0A6BC400 = .command (.wrbitF .w16 5 3 6 1) := by decide
theorem test_decode_setbitC : decode 0x0CABC000 = .command (.setbitC .w32 5 3 6) := by decide
theorem test_decode_setbitU : decode 0x0DEBC000 = .command (.setbitU .w64 5 3 6) := by decide
theorem test_decode_setbitF : decode 0x0E2BC000 = .command (.setbitF .w8 5 3 6) := by decide
theorem test_decode_clrbitC : decode 0x106BC000 = .command (.clrbitC .w16 5 3 6) := by decide
theorem test_decode_clrbitU : decode 0x11ABC000 = .command (.clrbitU .w32 5 3 6) := by decide
theorem test_decode_clrbitF : decode 0x12EBC000 = .command (.clrbitF .w64 5 3 6) := by decide
theorem test_decode_tglbitC : decode 0x142BC000 = .command (.tglbitC .w8 5 3 6) := by decide
theorem test_decode_tglbitU : decode 0x156BC000 = .command (.tglbitU .w16 5 3 6) := by decide
theorem test_decode_tglbitF : decode 0x16ABC000 = .command (.tglbitF .w32 5 3 6) := by decide
theorem test_decode_rdbitsC : decode 0x18EBC400 = .command (.rdbitsC .w64 5 3 6 1) := by decide
theorem test_decode_rdbitsU : decode 0x192BC400 = .command (.rdbitsU .w8 5 3 6 1) := by decide
theorem test_decode_rdbitsF : decode 0x1A6BC400 = .command (.rdbitsF .w16 5 3 6 1) := by decide
theorem test_decode_wrbitsC : decode 0x1CABC780 = .command (.wrbitsC .w32 5 3 6 1 7) := by decide
theorem test_decode_wrbitsU : decode 0x1DEBC780 = .command (.wrbitsU .w64 5 3 6 1 7) := by decide
theorem test_decode_wrbitsF : decode 0x1E2BC780 = .command (.wrbitsF .w8 5 3 6 1 7) := by decide
theorem test_decode_bget : decode 0x402B0000 = .command (.bget 5 3) := by decide
theorem test_decode_bset : decode 0x44030000 = .command (.bset 3) := by decide
theorem test_decode_bclr : decode 0x48030000 = .command (.bclr 3) := by decide
theorem test_decode_bwr : decode 0x4C03C000 = .command (.bwr 3 6) := by decide
theorem test_decode_bwrbits : decode 0x5003C400 = .command (.bwrbits 3 6 1) := by decide
theorem test_decode_vnew : decode 0x8003C040 = .command (.vnew 2 3 6) := by decide
theorem test_decode_vnews : decode 0x8403C440 = .command (.vnews 2 3 6 1) := by decide
theorem test_decode_vnewsl : decode 0x8803C7C0 = .command (.vnewsl 2 3 6 1 7) := by decide
theorem test_decode_vget : decode 0x8C2B0040 = .command (.vget 5 2 3) := by decide
theorem test_decode_vput : decode 0x9003C040 = .command (.vput 2 3 6) := by decide
theorem test_decode_vlen : decode 0x94280040 = .command (.vlen 5 2) := by decide
theorem test_decode_vempty : decode 0x98280040 = .command (.vempty 5 2) := by decide
theorem test_decode_vclr : decode 0x9C000040 = .command (.vclr 2) := by decide
theorem test_decode_vset : decode 0xA0000040 = .command (.vset 2) := by decide
theorem test_decode_vfill : decode 0xA4030040 = .command (.vfill 2 3) := by decide
theorem test_decode_veq : decode 0xA8280048 = .command (.veq 5 2 1) := by decide
theorem test_decode_vne : decode 0xAC280048 = .command (.vne 5 2 1) := by decide
theorem test_decode_vequals : decode 0xB0280048 = .command (.vequals 5 2 1) := by decide
theorem test_decode_vhash : decode 0xB4280040 = .command (.vhash 5 2) := by decide
theorem test_decode_chk3 : decode 0xC02B0000 = .command (.chk3 5 3) := by decide
theorem test_decode_chk1 : decode 0xC42B0000 = .command (.chk1 5 3) := by decide
theorem test_decode_chk2 : decode 0xC82B0000 = .command (.chk2 5 3) := by decide

/-! ### One step of every command -/

theorem test_rdbitC_RDBIT_3 :
    codeAndX4 (exec (.rdbitC .w8 4 0 1) (small [0xB4, 7, 0, 0, 0xEEEE] [])) = some (0, 1) := by decide
theorem test_rdbitC_RDBIT_4 :
    codeAndX4 (exec (.rdbitC .w8 4 0 1) (small [0xB4, 8, 0, 0, 0xEEEE] [])) = some (1, 0xEEEE) := by decide
theorem test_rdbitU_RDBIT_13 :
    codeAndX4 (exec (.rdbitU .w8 4 0 1) (small [0xB4, 2, 0, 0, 0xEEEE] [])) = some (0, 1) := by decide
theorem test_rdbitF_RDBIT_18 :
    codeAndX4 (exec (.rdbitF .w8 4 0 1) (small [0xB4, 0xFFFFFFFFFFFFFFFF, 0, 0, 0xEEEE] [])) = some (0, 1) := by decide
theorem test_wrbitC_WRBIT_5 :
    codeAndX4 (exec (.wrbitC .w8 4 0 1 2) (small [0xB4, 0, 0x100, 0, 0xEEEE] [])) = some (0, 0xB5) := by decide
theorem test_wrbitC_WRBIT_4 :
    codeAndX4 (exec (.wrbitC .w16 4 0 1 2) (small [0x1234, 0x10, 1, 0, 0xEEEE] [])) = some (1, 0xEEEE) := by decide
theorem test_wrbitU_WRBIT_10 :
    codeAndX4 (exec (.wrbitU .w16 4 0 1 2) (small [0x1234, 0xF, 7, 0, 0xEEEE] [])) = some (0, 0x9234) := by decide
theorem test_wrbitF_WRBIT_12 :
    codeAndX4 (exec (.wrbitF .w8 4 0 1 2) (small [0xB4, 0xB, 5, 0, 0xEEEE] [])) = some (0, 0xBC) := by decide
theorem test_setbitC_SETBIT_1 :
    codeAndX4 (exec (.setbitC .w32 4 0 1) (small [0, 0x1F, 0, 0, 0xEEEE] [])) = some (0, 0x80000000) := by decide
theorem test_setbitC_SETBIT_2 :
    codeAndX4 (exec (.setbitC .w32 4 0 1) (small [0, 0x20, 0, 0, 0xEEEE] [])) = some (1, 0xEEEE) := by decide
theorem test_setbitU_SETBIT_7 :
    codeAndX4 (exec (.setbitU .w32 4 0 1) (small [0, 0x1F, 0, 0, 0xEEEE] [])) = some (0, 0x80000000) := by decide
theorem test_setbitF_SETBIT_10 :
    codeAndX4 (exec (.setbitF .w16 4 0 1) (small [0, 0x1F, 0, 0, 0xEEEE] [])) = some (0, 0x8000) := by decide
theorem test_clrbitC_CLRBIT_1 :
    codeAndX4 (exec (.clrbitC .w64 4 0 1) (small [0xFFFFFFFFFFFFFFFF, 0x3F, 0, 0, 0xEEEE] [])) = some (0, 0x7FFFFFFFFFFFFFFF) := by decide
theorem test_clrbitC_CLRBIT_2 :
    codeAndX4 (exec (.clrbitC .w64 4 0 1) (small [0xFFFFFFFFFFFFFFFF, 0x40, 0, 0, 0xEEEE] [])) = some (1, 0xEEEE) := by decide
theorem test_clrbitU_CLRBIT_7 :
    codeAndX4 (exec (.clrbitU .w8 4 0 1) (small [0xB4, 2, 0, 0, 0xEEEE] [])) = some (0, 0xB0) := by decide
theorem test_clrbitF_CLRBIT_9 :
    codeAndX4 (exec (.clrbitF .w8 4 0 1) (small [0xB4, 0xC, 0, 0, 0xEEEE] [])) = some (0, 0xA4) := by decide
theorem test_tglbitC_TGLBIT_3 :
    codeAndX4 (exec (.tglbitC .w8 4 0 1) (small [0xB4, 0, 0, 0, 0xEEEE] [])) = some (0, 0xB5) := by decide
theorem test_tglbitC_TGLBIT_4 :
    codeAndX4 (exec (.tglbitC .w8 4 0 1) (small [0xB4, 8, 0, 0, 0xEEEE] [])) = some (1, 0xEEEE) := by decide
theorem test_tglbitU_TGLBIT_7 :
    codeAndX4 (exec (.tglbitU .w8 4 0 1) (small [0xB4, 7, 0, 0, 0xEEEE] [])) = some (0, 0x34) := by decide
theorem test_tglbitF_TGLBIT_10 :
    codeAndX4 (exec (.tglbitF .w16 4 0 1) (small [0xFF, 0x10, 0, 0, 0xEEEE] [])) = some (0, 0xFE) := by decide
theorem test_rdbitsC_RDBITS_3 :
    codeAndX4 (exec (.rdbitsC .w32 4 0 1 2) (small [0xDEADBEEF, 8, 0x18, 0, 0xEEEE] [])) = some (0, 0xDEADBE) := by decide
theorem test_rdbitsC_RDBITS_10 :
    codeAndX4 (exec (.rdbitsC .w8 4 0 1 2) (small [0xB4, 8, 0, 0, 0xEEEE] [])) = some (1, 0xEEEE) := by decide
theorem test_rdbitsU_RDBITS_20 :
    codeAndX4 (exec (.rdbitsU .w8 4 0 1 2) (small [0xB4, 2, 4, 0, 0xEEEE] [])) = some (0, 0xD) := by decide
theorem test_rdbitsF_RDBITS_23 :
    codeAndX4 (exec (.rdbitsF .w16 4 0 1 2) (small [0xFFFE, 0x11, 7, 0, 0xEEEE] [])) = some (0, 0x7F) := by decide
theorem test_wrbitsC_WRBITS_1 :
    codeAndX4 (exec (.wrbitsC .w32 4 0 1 2 3) (small [0xDEADBEEF, 8, 0xC, 0xABC, 0xEEEE] [])) = some (0, 0xDEAABCEF) := by decide
theorem test_wrbitsC_WRBITS_5 :
    codeAndX4 (exec (.wrbitsC .w8 4 0 1 2 3) (small [0xB4, 5, 4, 0, 0xEEEE] [])) = some (1, 0xEEEE) := by decide
theorem test_wrbitsU_WRBITS_16 :
    codeAndX4 (exec (.wrbitsU .w8 4 0 1 2 3) (small [0xFF, 5, 3, 0, 0xEEEE] [])) = some (0, 0x1F) := by decide
theorem test_wrbitsF_WRBITS_18 :
    codeAndX4 (exec (.wrbitsF .w16 4 0 1 2 3) (small [0xFFFE, 0x11, 7, 0x55, 0xEEEE] [])) = some (0, 0xFFAA) := by decide
theorem test_bget_BGET_4 :
    codeAndX4 (exec (.bget 4 0) (small [8, 0, 0, 0, 0xEEEE] [0xB4, 1])) = some (0, 1) := by decide
theorem test_bget_BGET_6 :
    codeAndX4 (exec (.bget 4 0) (small [0x10, 0, 0, 0, 0xEEEE] [0xB4, 1])) = some (4, 0xEEEE) := by decide
theorem test_bset_BSET_1 :
    codeAndMem (exec (.bset 0) (small [9, 0, 0, 0, 0xEEEE] [0, 0])) = some (0, [0, 2]) := by decide
theorem test_bset_BSET_4 :
    codeAndMem (exec (.bset 0) (small [0x10, 0, 0, 0, 0xEEEE] [0, 0])) = some (4, [0, 0]) := by decide
theorem test_bclr_BCLR_1 :
    codeAndMem (exec (.bclr 0) (small [0xF, 0, 0, 0, 0xEEEE] [0xFF, 0xFF])) = some (0, [0xFF, 0x7F]) := by decide
theorem test_bclr_BCLR_4 :
    codeAndMem (exec (.bclr 0) (small [0x10000000000, 0, 0, 0, 0xEEEE] [0xFF, 0xFF])) = some (4, [0xFF, 0xFF]) := by decide
theorem test_bwr_BWR_3 :
    codeAndMem (exec (.bwr 0 1) (small [4, 0x100, 0, 0, 0xEEEE] [0])) = some (0, [0x10]) := by decide
theorem test_bwr_BWR_6 :
    codeAndMem (exec (.bwr 0 1) (small [8, 1, 0, 0, 0xEEEE] [0x35])) = some (4, [0x35]) := by decide
theorem test_bwrbits_BWRBITS_1 :
    codeAndMem (exec (.bwrbits 0 1 2) (small [0xA, 5, 3, 0, 0xEEEE] [0, 0xFF])) = some (0, [0, 0xF7]) := by decide
theorem test_bwrbits_BWRBITS_8 :
    codeAndMem (exec (.bwrbits 0 1 2) (small [0x11, 0, 8, 0, 0xEEEE] [0x12, 0xFF])) = some (1, [0x12, 0xFF]) := by decide
theorem test_vnew_VNEW_4 :
    codeAndV1 (exec (.vnew 1 0 1) (small [2, 0, 0, 0] [0, 0] .default (view 0 1 0 8))) =
      some (0, view 2 0 0 0) := by decide
theorem test_vnew_VNEW_6 :
    codeAndV1 (exec (.vnew 1 0 1) (small [0xFFFFFFFFFFFFFFFF, 2, 0, 0] [0, 0] .default (view 0 1 0 8))) =
      some (2, view 0 1 0 8) := by decide
theorem test_vnews_VNEWS_1 :
    codeAndV1 (exec (.vnews 1 0 1 2) (small [0, 4, 0xD, 0] [0, 0, 0, 0] .default (view 0 1 0 8))) =
      some (0, view 1 3 5 19) := by decide
theorem test_vnews_VNEWS_4 :
    codeAndV1 (exec (.vnews 1 0 1 2) (small [0, 4, 0x21, 0] [0, 0, 0, 0] .default (view 0 1 0 8))) =
      some (2, view 0 1 0 8) := by decide
theorem test_vnewsl_VNEWSL_1 :
    codeAndV1 (exec (.vnewsl 1 0 1 2 3) (small [0, 2, 9, 7] [0, 0] .default (view 0 1 0 8))) =
      some (0, view 1 1 1 7) := by decide
theorem test_vnewsl_VNEWSL_6 :
    codeAndV1 (exec (.vnewsl 1 0 1 2 3) (small [0, 2, 0xFFFFFFFFFFFFFFFF, 2] [0, 0] .default (view 0 1 0 8))) =
      some (2, view 0 1 0 8) := by decide
theorem test_vget_VGET_7 :
    codeAndX4 (exec (.vget 4 0 0) (small [1, 0, 0, 0, 0xEEEE] [0x80, 1] (view 0 2 7 2) .default)) = some (0, 1) := by decide
theorem test_vget_VGET_3 :
    codeAndX4 (exec (.vget 4 0 0) (small [7, 0, 0, 0, 0xEEEE] [0, 0xFE] (view 1 1 1 7) .default)) = some (1, 0xEEEE) := by decide
theorem test_vput_VPUT_3 :
    codeAndMem (exec (.vput 0 0 1) (small [1, 0, 0, 0, 0xEEEE] [0xFF, 0xFF] (view 0 2 7 2) .default)) = some (0, [0xFF, 0xFE]) := by decide
theorem test_vput_VPUT_2 :
    codeAndMem (exec (.vput 0 0 1) (small [7, 1, 0, 0, 0xEEEE] [0, 0] (view 1 1 1 7) .default)) = some (1, [0, 0]) := by decide
theorem test_vlen_VLEN_3 :
    codeAndX4 (exec (.vlen 4 0) (small [0, 0, 0, 0, 0xEEEE] [0, 0, 0, 0] (view 1 3 5 19) .default)) = some (0, 0x13) := by decide
theorem test_vempty_VEMPTY_3 :
    codeAndX4 (exec (.vempty 4 0) (small [0, 0, 0, 0, 0xEEEE] [0, 0, 0, 0] (view 0 4 0 0) .default)) = some (0, 1) := by decide
theorem test_vempty_VEMPTY_1 :
    codeAndX4 (exec (.vempty 4 0) (small [0, 0, 0, 0, 0xEEEE] [0, 0] (view 1 1 1 7) .default)) = some (0, 0) := by decide
theorem test_vclr_VCLR_1 :
    codeAndMem (exec (.vclr 0) (small [0, 0, 0, 0, 0xEEEE] [0xFF, 0xFF, 0xFF] (view 0 3 3 10) .default)) = some (0, [7, 0xE0, 0xFF]) := by decide
theorem test_vclr_VCLR_3 :
    codeAndMem (exec (.vclr 0) (small [0, 0, 0, 0, 0xEEEE] [0xFF, 0xFF] (view 0 2 0 16) .default)) = some (0, [0, 0]) := by decide
theorem test_vset_VSET_2 :
    codeAndMem (exec (.vset 0) (small [0, 0, 0, 0, 0xEEEE] [0, 0, 0, 0] (view 0 4 5 20) .default)) = some (0, [0xE0, 0xFF, 0xFF, 1]) := by decide
theorem test_vset_VSET_5 :
    codeAndMem (exec (.vset 0) (small [0, 0, 0, 0, 0xEEEE] [0, 0, 0] (view 0 3 4 12) .default)) = some (0, [0xF0, 0xFF, 0]) := by decide
theorem test_vfill_VFILL_2 :
    codeAndMem (exec (.vfill 0 0) (small [0, 0, 0, 0, 0xEEEE] [0xFF, 0xFF, 0xFF, 0xFF] (view 0 4 5 20) .default)) = some (0, [0x1F, 0, 0, 0xFE]) := by decide
theorem test_vfill_VFILL_4 :
    codeAndMem (exec (.vfill 0 0) (small [1, 0, 0, 0, 0xEEEE] [0xA5, 0xA5] (view 0 2 6 4) .default)) = some (0, [0xE5, 0xA7]) := by decide
theorem test_veq_VEQ_2 :
    codeAndX4 (exec (.veq 4 0 1) (small [0, 0, 0, 0, 0xEEEE] [0x58, 0xB] (view 0 1 3 4) (view 1 1 0 4))) = some (0, 1) := by decide
theorem test_veq_VEQ_3 :
    codeAndX4 (exec (.veq 4 0 1) (small [0, 0, 0, 0, 0xEEEE] [0x58, 3] (view 0 1 3 4) (view 1 1 0 4))) = some (0, 0) := by decide
theorem test_vne_VNE_2 :
    codeAndX4 (exec (.vne 4 0 1) (small [0, 0, 0, 0, 0xEEEE] [0x58, 3] (view 0 1 3 4) (view 1 1 0 4))) = some (0, 1) := by decide
theorem test_vne_VNE_3 :
    codeAndX4 (exec (.vne 4 0 1) (small [0, 0, 0, 0, 0xEEEE] [0xFF, 0xFF] (view 0 1 0 8) (view 0 1 0 7))) = some (0, 1) := by decide
theorem test_vequals_VEQUALS_1 :
    codeAndX4 (exec (.vequals 4 0 1) (small [0, 0, 0, 0, 0xEEEE] [0, 0] (view 0 2 0 16) (view 0 2 0 16))) = some (3, 0xEEEE) := by decide
theorem test_vhash_VHASH_1 :
    codeAndX4 (exec (.vhash 4 0) (small [0, 0, 0, 0, 0xEEEE] [0, 0] (view 0 2 0 16) .default)) = some (3, 0xEEEE) := by decide
theorem test_chk3_CHK3_3 :
    codeAndX4 (exec (.chk3 4 0) (small [7, 0, 0, 0, 0xEEEE] [])) = some (0, 7) := by decide
theorem test_chk3_CHK3_4 :
    codeAndX4 (exec (.chk3 4 0) (small [8, 0, 0, 0, 0xEEEE] [])) = some (1, 0xEEEE) := by decide
theorem test_chk1_CHK1_2 :
    codeAndX4 (exec (.chk1 4 0) (small [1, 0, 0, 0, 0xEEEE] [])) = some (0, 1) := by decide
theorem test_chk1_CHK1_3 :
    codeAndX4 (exec (.chk1 4 0) (small [2, 0, 0, 0, 0xEEEE] [])) = some (1, 0xEEEE) := by decide
theorem test_chk2_CHK2_2 :
    codeAndX4 (exec (.chk2 4 0) (small [3, 0, 0, 0, 0xEEEE] [])) = some (0, 3) := by decide
theorem test_chk2_CHK2_3 :
    codeAndX4 (exec (.chk2 4 0) (small [4, 0, 0, 0, 0xEEEE] [])) = some (1, 0xEEEE) := by decide

/-! ### Words that are no command, and host actions outside `MEM` -/

/-- Each well-formedness check refuses a word that breaks it alone, and the decoder refuses it too (T-ILL-4, -3, -12, -13,
-9, -14, -17). -/
theorem test_wellFormed_refuses_unassigned_opcode :
    opAssigned 0x20000000 = false ∧ opAssigned 0 = false ∧ decode 0x20000000 = .illegal := by decide
theorem test_wellFormed_refuses_variant_3 : variantLegal 0x07000000 = false ∧ decode 0x07000000 = .illegal := by decide
theorem test_wellFormed_refuses_wsel_of_a_buffer_word :
    variantLegal 0x40600000 = false ∧ decode 0x40600000 = .illegal := by decide
theorem test_wellFormed_refuses_var_of_a_buffer_word :
    variantLegal 0x41200000 = false ∧ decode 0x41200000 = .illegal := by decide
theorem test_wellFormed_refuses_zero_field : unusedZero 0x04202001 = false ∧ decode 0x04202001 = .illegal := by decide
theorem test_wellFormed_refuses_unused_rd : unusedZero 0x44080000 = false ∧ decode 0x44080000 = .illegal := by decide
theorem test_wellFormed_refuses_unused_vb : unusedZero 0x8C200008 = false ∧ decode 0x8C200008 = .illegal := by decide
theorem test_wellFormed_accepts_a_command : wellFormedWord 0x042BC000 = true := by decide

/-- An illegal word raises code 5 and writes nothing (T-ILL-19: not `Unsupported`). -/
theorem test_illegal_word_VEQUALS_var_1 :
    codeAndX4 (runCommand 0xB1000000 (small [0, 0, 0, 0, 0xEEEE] [])) = some (5, 0xEEEE) := by decide

/-- The first command after reset is the one presented (30_encoding.md R71's example word). -/
theorem test_first_step_runs_the_presented_word :
    decodeTableWord 32 0x18484C00 = some (.rdbitsC .w16 1 0 2 3) ∧
      (match step (State.reset.withFetchWord 32 0x18484C00) with
        | .next t => decide (t.index = 1 ∧ t.reply = .response 0 ∧ t.inputs = [])
        | _ => false) = true := by decide

theorem test_reset_memory_is_canonical : State.reset.mem.wf := by decide

/-! ### Witnesses of the hypotheses of the statements -/

/-- Four bytes of memory and two views of two bytes each. -/
def demo : State :=
  small [31, 32, 0, 7, 0xEEEE, 0, 1, 8] [0xA5, 0x3C, 0xA5, 0x3C] (view 0 2 0 16) (view 2 2 0 16)

/-- `demo` with other registers. -/
def demoX (x : List Nat) : State := { demo with x := regs x }

/-- `demo` with a host that presents a command, writes the last byte and resets the unit. -/
def demoRun : State := { demo with inputs := [.command 0x042BC000, .memWrite 3 1, .reset] }

/-- The command answers a next state with the property. -/
def nextWith (i : Instr) (s : State) (p : State → Bool) : Bool :=
  match exec i s with
  | .next t => p t
  | _ => false

theorem demo_inv : demo.Inv := ⟨by decide, by decide, by decide, by decide⟩
theorem demoRun_inv : demoRun.Inv := ⟨by decide, by decide, by decide, by decide⟩

theorem witness_DecodedWordIsTheEncodedWord : decode 0x8803C7C0 = .command (.vnewsl 2 3 6 1 7) := by decide

theorem witness_WordIsCommandOfARowExactlyWhenItMatches :
    opcodeTable[0] ∈ opcodeTable ∧ 0x042BC000 &&& opcodeTable[0].mask = opcodeTable[0].mtch :=
  ⟨List.getElem_mem (by decide), by decide⟩

theorem witness_NoWordMatchesTwoRows :
    opcodeTable[42]? = some opcodeTable[42] ∧ 0xC82B0000 &&& opcodeTable[42].mask = opcodeTable[42].mtch :=
  ⟨List.getElem?_eq_getElem (by decide), by decide⟩

theorem witness_IllegalWordsRaiseIllegalCommand :
    wellFormedWord 0 = false ∧ wellFormedWord 0xFFFFFFFF = false ∧ wellFormedWord 0x07000000 = false := by decide

theorem witness_StepRunsTheDecodedCommand :
    demoRun.inputs = .command 0x042BC000 :: [.memWrite 3 1, .reset] ∧
      decode 0x042BC000 = .command (.rdbitC .w8 5 3 6) := by decide

/-- One state for each kind of action, an illegal word and a byte outside `MEM` among them. -/
theorem witness_StepPerformsTheNextAction :
    demoRun.inputs = .command 0x042BC000 :: [.memWrite 3 1, .reset] ∧
      decode 0xB1000000 = .illegal ∧
      ∀ a ∈ [HostAction.command 0xB1000000, .regWrite 8 1, .regRead 7, .memWrite 3 1, .memRead 4, .reset],
        ({ demo with inputs := [a] } : State).inputs = a :: [] :=
  ⟨rfl, by decide, fun _ _ => rfl⟩

theorem witness_StepCountsOneAction :
    (∃ t, step demoRun = .next t) ∧ demoRun.inputs = .command 0x042BC000 :: [.memWrite 3 1, .reset] ∧
      (∃ t, step demo = .next t) ∧ demo.inputs = [] :=
  ⟨⟨_, rfl⟩, rfl, ⟨_, rfl⟩, rfl⟩

theorem witness_RegisterPortReachesRegistersAndStatus :
    (0 : Port).val = (0 : Reg).val ∧ (7 : Port).val = (7 : Reg).val := by decide

theorem witness_HostReadsAndWritesBytesOfMem : demo.mem.wf ∧ 3 < demo.memBytes.val ∧ demo.memBytes.val ≤ 4 := by decide

theorem witness_EveryStepKeepsTheInvariant : demoRun.Inv ∧ ∃ t, step demoRun = .next t := ⟨demoRun_inv, _, rfl⟩

theorem witness_EveryCommandEnds : demo.Inv ∧ (State.resetWith 0).Inv :=
  ⟨demo_inv, by decide, by decide, by decide, by decide⟩

theorem witness_CommandsFaultOnlyOutsideTheInvariant :
    exec (.vget 4 0 2) { demo with v := #v[view 4 1 0 8, view 0 0 0 0, view 0 0 0 0, view 0 0 0 0] } =
      .fault (.noSuchByte 4) := rfl

theorem witness_RunsNeverStop : demoRun.Inv ∧ ∀ a ∈ demoRun.inputs, a.ok demoRun.memBytes.val :=
  ⟨demoRun_inv, by simp [demoRun, demo, small, HostAction.ok, State.resetWith]⟩

theorem witness_EveryCommandPublishesOneCode :
    nextWith (.bget 4 0) demo (fun _ => true) = true ∧ nextWith (.bget 4 1) demo (fun _ => true) = true := by decide

theorem witness_FailedCommandChangesNothing :
    nextWith (.bget 4 1) demo (fun t => t.statusCode ≠ 0) = true ∧
      nextWith (.bget 4 0) demo (fun t => t.trace ≠ []) = true := by decide

theorem witness_CommandsRaiseOnlyTheirOwnConditions :
    nextWith (.vhash 4 0) demo (fun t => t.statusCode = 3) = true ∧
      nextWith (.vnew 0 0 1) demo (fun t => t.statusCode = 2) = true := by decide

theorem witness_PastOutcomesDoNotStick : ∃ t, exec (.vlen 4 0) demo = .next t := ⟨_, rfl⟩

theorem witness_CommandsWriteOnlyTheirDestinationRegister :
    (∃ t, exec (.vlen 4 0) demo = .next t) ∧ destReg (.vlen 4 0) ≠ some 3 ∧
      (∃ t, exec (.vclr 0) demo = .next t) ∧ destReg (.vclr 0) ≠ some 0 := ⟨⟨_, rfl⟩, by decide, ⟨_, rfl⟩, by decide⟩

theorem witness_OnlyConstructionWritesDescriptors :
    (∃ t, exec (.vnew 1 2 2) demo = .next t) ∧ destView (.vnew 1 2 2) ≠ some 0 := ⟨⟨_, rfl⟩, by decide⟩

/-- One command of each access pattern completes with `OK` at the addresses stated; a byte that was not stored exists in
each. -/
theorem witness_AccessesOfEachCommand :
    demo.mem.wf ∧ nextWith (.bget 4 0) demo (fun t => t.statusCode = 0 ∧ t.trace = [.load 3]) = true ∧
      nextWith (.bset 0) demo (fun t => t.statusCode = 0 ∧ t.trace = [.load 3, .store 3 0xBC]) = true ∧
      nextWith (.vput 1 3 1) demo (fun t => t.statusCode = 0 ∧ t.trace = [.load 2, .store 2 0xA5]) = true ∧
      nextWith (.vset 0) demo (fun t => t.statusCode = 0 ∧ t.trace = [.store 0 0xFF, .store 1 0xFF]) = true ∧
      nextWith (.veq 4 0 1) demo (fun t => t.statusCode = 0) = true ∧
      nextWith (.vlen 4 0) demo (fun t => t.statusCode = 0 ∧ t.trace = []) = true := by decide

theorem witness_AccessesStayInMemAndInSpans :
    (∃ t, exec (.vset 1) demo = .next t) ∧ viewsOf (.vset 1) demo = some [demo.v[1]] ∧
      (∃ t, exec (.vne 4 0 1) demo = .next t) ∧ viewsOf (.vne 4 0 1) demo = some [demo.v[0], demo.v[1]] :=
  ⟨⟨_, rfl⟩, rfl, ⟨_, rfl⟩, rfl⟩

/-- A bit command's clauses meet at index `W - 1` and `W` (here `x[3] = 7` and `x[7] = 8` at 8 bits); the fast clause has
no hypothesis. -/
theorem witness_bit_commands :
    (demo.x[3]).toNat < Width.bits .w8 ∧ Width.bits .w8 ≤ (demo.x[7]).toNat := by decide

/-- A field command's clauses: index 7 with counts 1 and 2, index 8 with count 0, and the fast form of index 15. -/
theorem witness_field_commands :
    ((demoX [7, 1]).x[0].toNat < 8 ∧ (demoX [7, 1]).x[1].toNat ≤ 8 - (demoX [7, 1]).x[0].toNat) ∧
      8 - (demoX [7, 2]).x[0].toNat < (demoX [7, 2]).x[1].toNat ∧ 8 ≤ (demoX [8, 0]).x[0].toNat ∧
      (demoX [15, 1]).x[1].toNat ≤ 8 - (demoX [15, 1]).x[0].toNat % 8 ∧
      8 - (demoX [15, 2]).x[0].toNat % 8 < (demoX [15, 2]).x[1].toNat := by decide

theorem witness_BgetReadsOneBit : demo.byteIndex 0 < demo.memBytes.val ∧ demo.memBytes.val ≤ demo.byteIndex 1 := by
  decide

theorem witness_BufferBitStoresChangeOneBit :
    demo.mem.wf ∧ demo.byteIndex 0 < demo.memBytes.val ∧ demo.memBytes.val ≤ demo.byteIndex 1 := by decide

/-- Flat bit 30 with counts 3 and 2, and flat bit 32. -/
theorem witness_BwrbitsWritesAFieldOfOneByte :
    demo.mem.wf ∧ 8 - (demoX [30, 0, 3]).bitIndex 0 < (demoX [30, 0, 3]).x[2].toNat ∧
      ((demoX [30, 0, 2]).x[2].toNat ≤ 8 - (demoX [30, 0, 2]).bitIndex 0 ∧
        (demoX [30, 0, 2]).byteIndex 0 < demo.memBytes.val) ∧
      (demoX [32, 0, 8]).x[2].toNat ≤ 8 - (demoX [32, 0, 8]).bitIndex 0 ∧
        demo.memBytes.val ≤ (demoX [32, 0, 8]).byteIndex 0 := by decide

theorem witness_VnewConstructsTheWholeSlice :
    (demoX [2, 2]).x[0].toNat + (demoX [2, 2]).x[1].toNat ≤ demo.memBytes.val ∧
      demo.memBytes.val < (demoX [3, 2]).x[0].toNat + (demoX [3, 2]).x[1].toNat := by decide

theorem witness_VnewsConstructsFromTheStart :
    ((demoX [2, 2, 16]).x[0].toNat + (demoX [2, 2, 16]).x[1].toNat ≤ demo.memBytes.val ∧
        (demoX [2, 2, 16]).x[2].toNat ≤ (demoX [2, 2, 16]).x[1].toNat * 8) ∧
      demo.memBytes.val < (demoX [3, 2, 0]).x[0].toNat + (demoX [3, 2, 0]).x[1].toNat ∧
      (demoX [2, 2, 17]).x[1].toNat * 8 < (demoX [2, 2, 17]).x[2].toNat := by decide

theorem witness_VnewslConstructsTheWindow :
    ((demoX [2, 2, 9, 7]).x[0].toNat + (demoX [2, 2, 9, 7]).x[1].toNat ≤ demo.memBytes.val ∧
        (demoX [2, 2, 9, 7]).x[2].toNat + (demoX [2, 2, 9, 7]).x[3].toNat ≤ (demoX [2, 2, 9, 7]).x[1].toNat * 8) ∧
      demo.memBytes.val < (demoX [3, 2, 0, 0]).x[0].toNat + (demoX [3, 2, 0, 0]).x[1].toNat ∧
      (demoX [2, 2, 9, 8]).x[1].toNat * 8 < (demoX [2, 2, 9, 8]).x[2].toNat + (demoX [2, 2, 9, 8]).x[3].toNat := by
  decide

theorem witness_ConstructedViewsAreInsideMem :
    destView (.vnewsl 1 0 1 2 3) = some 1 ∧
      nextWith (.vnewsl 1 0 1 2 3) (demoX [2, 2, 9, 7]) (fun t => t.statusCode = 0) = true := by decide

theorem witness_VgetReadsTheViewBit :
    demo.v[0].ok demo.memBytes.val ∧ (demoX [15]).x[0].toNat < demo.v[0].length.toNat ∧
      demo.v[0].length.toNat ≤ (demoX [16]).x[0].toNat := by decide

theorem witness_VputWritesTheViewBit :
    demo.mem.wf ∧ demo.v[0].ok demo.memBytes.val ∧ (demoX [15]).x[0].toNat < demo.v[0].length.toNat ∧
      demo.v[0].length.toNat ≤ (demoX [16]).x[0].toNat := by decide

/-- Bit 15 of the view of bytes 0 and 1 is bit 0 of a view that starts at bit 7 of byte 1. -/
theorem witness_AliasedViewsSeeTheSameBit :
    let s := small [15, 0] [0xA5, 0x3C, 0xA5, 0x3C] (view 0 2 0 16) (view 1 3 7 17)
    s.mem.wf ∧ s.v[0].ok s.memBytes.val ∧ s.v[1].ok s.memBytes.val ∧ s.x[0].toNat < s.v[0].length.toNat ∧
      s.x[1].toNat < s.v[1].length.toNat ∧ viewflat s.v[0] s.x[0].toNat = viewflat s.v[1] s.x[1].toNat := by decide

theorem witness_VlenAndVemptyReadTheDescriptor :
    demo.v[0].ok demo.memBytes.val ∧ (view 4 0 0 0).ok demo.memBytes.val := by decide

theorem witness_DefaultViewAddressesNothing :
    demo.v[2] = { base := 0, nbytes := 0, start := 0, length := 0 } ∧ demo.v[3].length.toNat = 0 := by decide

theorem witness_FillsWriteExactlyTheView :
    demo.mem.wf ∧ demo.v[0].ok demo.memBytes.val ∧ covers demo.v[0] 15 ∧ ¬ covers demo.v[0] 16 := by
  unfold covers; decide

theorem witness_FillPlanCoversExactlyTheView : fillplan 7 2 = [(0, 0x80), (1, 0x01)] ∧ (7 : Nat) ≤ 7 := by decide

theorem witness_VeqAndVneCompareTheBits :
    demo.v[0].ok demo.memBytes.val ∧ demo.v[1].ok demo.memBytes.val := by decide

theorem witness_VgetEnumeratesTheView :
    demo.v[0].ok demo.memBytes.val ∧ (enumerate demo.mem demo.v[0])[(demoX [15]).x[0].toNat]? = some 0 := by decide

theorem witness_ViewBitsLieInTheSlice : (view 1 3 7 17).ok 4 ∧ 16 < (view 1 3 7 17).length.toNat := by decide

theorem witness_BoundedChecksCopyOrRaise :
    (demoX [7]).x[0].toNat ≤ 7 ∧ 7 < (demoX [8]).x[0].toNat ∧ (demoX [1]).x[0].toNat ≤ 1 ∧
      1 < (demoX [2]).x[0].toNat ∧ (demoX [3]).x[0].toNat ≤ 3 ∧ 3 < (demoX [4]).x[0].toNat := by decide

theorem witness_BitAndFieldLaws :
    0xB4 < 2 ^ Width.bits .w8 ∧ 7 < Width.bits .w8 ∧ 1 ≤ Width.bits .w8 - 7 ∧ 0x1A5 < 2 ^ 64 ∧ ¬ (7 ≤ 6 ∧ 6 < 7 + 1) := by
  decide

theorem witness_FieldEdgeCases : 0xB4 < 2 ^ Width.bits .w8 ∧ 7 < Width.bits .w8 := by decide

theorem witness_LittleEndianLoadAgreesWithFlatBits : 63 < 8 * 8 := by decide

end Sys2Proof.Tests
end

section
/-! PROOFS. What each operation keeps of the unit's state: the invariant (10_state.md R24, R27), field by field. -/

namespace Sys2Proof.Machine

/-! ### Condition codes -/

/-- Every condition has a code 0 to 5 (60_exceptions.md R180). -/
theorem Condition.code_toNat_le (c : Condition) : c.code.toNat ≤ 5 := by
  cases c <;> decide

/-- `STATUS` reads as the code it holds. -/
theorem statusWord_toNat (c : BitVec 4) : (statusWord c).toNat = c.toNat := by
  have := c.isLt
  simp only [statusWord, BitVec.toNat_setWidth]
  omega

/-- The code field of a `STATUS` that holds a code is that code. -/
theorem State.statusCode_of_status {t : State} {c : BitVec 4} (h : t.status = statusWord c) : t.statusCode = c := by
  rw [State.statusCode, h]
  apply BitVec.eq_of_toNat_eq
  have := c.isLt
  rw [BitVec.toNat_setWidth, statusWord_toNat]
  omega

/-! ### The invariant, operation by operation -/

/-- The default view lies in every memory (10_state.md R25). -/
theorem ViewDesc.default_ok (n : Nat) : ViewDesc.default.ok n := by
  simp [ViewDesc.ok, ViewDesc.default]

namespace State.Inv

variable {s : State}

/-- The end of a command keeps the invariant: its code is 0 to 5. -/
theorem complete (h : s.Inv) (c : Condition) (l : List Access) : (s.complete c l).Inv where
  views := h.views
  status := by rw [complete_status, statusWord_toNat]; exact c.code_toNat_le
  canonical := h.canonical
  inside := h.inside

/-- A register write keeps the invariant. -/
theorem setX (h : s.Inv) (r : Reg) (w : Xword) : (s.setX r w).Inv := ⟨h.views, h.status, h.canonical, h.inside⟩

/-- A draw keeps the invariant. -/
theorem drawn (h : s.Inv) : s.drawn.Inv := ⟨h.views, h.status, h.canonical, h.inside⟩

/-- The answer to a host read keeps the invariant. -/
theorem answer (h : s.Inv) (w : Xword) : (s.answer w).Inv := ⟨h.views, h.status, h.canonical, h.inside⟩

/-- The host's list moving on keeps the invariant. -/
theorem advance (h : s.Inv) (l : List HostAction) : (s.advance l).Inv := ⟨h.views, h.status, h.canonical, h.inside⟩

/-- A descriptor inside `MEM` may replace any other. -/
theorem setView (h : s.Inv) (k : ViewIdx) {d : ViewDesc} (hd : d.ok s.memBytes.val) : (s.setView k d).Inv where
  views j := by
    rw [setView_get, setView_memBytes]
    split
    · exact hd
    · exact h.views j
  status := h.status
  canonical := h.canonical
  inside := h.inside

/-- A memory in canonical form without a byte outside `MEM` may replace any other. -/
theorem setMem (h : s.Inv) {m : Memory} (hw : m.wf) (hi : ∀ c ∈ m, c.1 < s.memBytes.val) : (s.setMem m).Inv :=
  ⟨h.views, h.status, hw, hi⟩

/-- One byte of `MEM` written keeps the invariant. -/
theorem writeByte (h : s.Inv) {a : Nat} (ha : a < s.memBytes.val) (b : Byte) : (s.setMem (s.mem.write a b)).Inv :=
  h.setMem (Memory.write_wf h.canonical a b) (Memory.write_inside h.inside ha b)

/-- Reset gives the default views and code 0, and leaves `MEM`. -/
theorem assertReset (h : s.Inv) : s.assertReset.Inv where
  views k := by
    rw [assertReset_v, Fin.getElem_fin, Vector.getElem_replicate]
    exact ViewDesc.default_ok _
  status := by simp
  canonical := h.canonical
  inside := h.inside

/-- A host write at the register port writes one register or nothing. -/
theorem portWrite (h : s.Inv) (p : Port) (w : Xword) : (s.portWrite p w).Inv := by
  unfold State.portWrite
  split
  · exact h.setX _ w
  · exact h

end State.Inv

/-- The state after reset has the invariant, whatever the memory size. -/
theorem State.resetWith_inv (m : Config.MemSize) : (State.resetWith m).Inv where
  views k := by
    rw [State.resetWith, Fin.getElem_fin, Vector.getElem_replicate]
    exact ViewDesc.default_ok _
  status := by simp [State.resetWith]
  canonical := Memory.nil_wf
  inside := by simp [State.resetWith]

end Sys2Proof.Machine
end

section
/-! PROOFS. Views and the bytes they address: spans, fill plans, and what construction gives. -/

namespace Sys2Proof.Machine

/-! ### The bytes of a view inside `MEM` (10_state.md R24, 43_bit_view.md R159) -/

/-- A bit of a view inside `MEM` lies in a byte of `MEM`. -/
theorem ViewDesc.ok.byte_lt {d : ViewDesc} {n i : Nat} (h : d.ok n) (hi : i < d.length.toNat) :
    (split (viewflat d i)).1 < n := by
  obtain ⟨hwindow, hslice⟩ := h
  rw [split_eq, viewflat]
  omega

/-- The whole span of a view inside `MEM` is in `MEM`. -/
theorem ViewDesc.ok.spanInside {s : State} {d : ViewDesc} (h : d.ok s.memBytes.val) : s.spanInside d = true := by
  obtain ⟨hwindow, hslice⟩ := h
  simp only [State.spanInside, Bool.or_eq_true, beq_iff_eq, decide_eq_true_eq]
  by_cases hl : d.length = 0
  · exact .inl hl
  · have hpos : d.length.toNat ≠ 0 := fun e => hl (BitVec.eq_of_toNat_eq e)
    refine .inr ?_
    rw [ViewDesc.lastByte, Nat.shiftRight_eq_div_pow]
    omega

/-- A span that leaves `MEM` ends at or above `MEM_BYTES`. -/
theorem State.le_lastByte_of_not_spanInside {s : State} {d : ViewDesc} (h : ¬ s.spanInside d = true) :
    s.memBytes.val ≤ d.lastByte := by
  simp only [State.spanInside, Bool.or_eq_true, beq_iff_eq, decide_eq_true_eq, not_or] at h
  exact Nat.le_of_not_lt h.2

/-! ### The bytes a fill writes (43_bit_view.md R148) -/

/-- The whole-byte part of a fill plan reaches no further than its last offset. -/
theorem fst_le_of_mem_fullBytes {first last : Nat} {e : Nat × Nat} (h : e ∈ fullBytes first last) : e.1 ≤ last := by
  simp only [fullBytes, List.mem_map, List.mem_range'_1] at h
  obtain ⟨k, hk, rfl⟩ := h
  dsimp only
  omega

/-- No entry of a fill plan lies past the last byte the view touches (40_datapath_functions.md R98). -/
theorem fst_le_of_mem_fillplan {start length : Nat} {e : Nat × Nat} (h : e ∈ fillplan start length) :
    e.1 ≤ (start + length - 1) >>> 3 := by
  unfold fillplan at h
  split at h
  · cases h
  · dsimp only at h
    split at h
    · rw [List.mem_singleton] at h
      simp [h]
    · rw [List.mem_append, List.mem_append] at h
      rcases h with (hhead | hfull) | htail
      · split at hhead
        · rw [List.mem_singleton] at hhead
          simp [hhead]
        · cases hhead
      · have := fst_le_of_mem_fullBytes hfull
        split at this <;> omega
      · split at htail
        · rw [List.mem_singleton] at htail
          simp [htail]
        · cases htail

/-- The plan of a view whose length is 0 is empty, so its fill makes no access. -/
theorem fillBus_of_length_zero {d : ViewDesc} (h : d.length = 0) (f : Bool) (m : Memory) :
    fillBus d f m = { mem := m, trace := [] } := by
  simp [fillBus, fillplan, h]

/-- A fill of a view whose span is in `MEM` lists no byte outside `MEM`. -/
theorem fillBus_inside {s : State} {d : ViewDesc} (hd : s.spanInside d = true) (f : Bool)
    (hm : ∀ c ∈ s.mem, c.1 < s.memBytes.val) : ∀ c ∈ (fillBus d f s.mem).mem, c.1 < s.memBytes.val := by
  simp only [State.spanInside, Bool.or_eq_true, beq_iff_eq, decide_eq_true_eq] at hd
  rcases hd with hempty | hlast
  · rwa [fillBus_of_length_zero hempty]
  · refine Memory.fill_induction (P := fun m => ∀ c ∈ m, c.1 < s.memBytes.val)
      (fun m e b he hmem => Memory.write_inside hmem ?_ b) _ hm
    have hoff := fst_le_of_mem_fillplan he
    rw [ViewDesc.lastByte] at hlast
    omega

/-! ### What construction gives (43_bit_view.md R140) -/

/-- A geometry that construction gives is held by a descriptor inside `MEM`: no field but the base can overflow, and a
base that does (log 8) is that of an empty slice at the end of a memory of `2^32` bytes. -/
theorem descOf_ok {s : State} {b n st l : Nat} {g : Geometry} (h : construct s.memBytes.val b n st l = some g) :
    (s.descOf g).ok s.memBytes.val := by
  obtain ⟨hslice, hwindow, rfl⟩ := construct_some h
  have hmem := s.memBytes.isLt
  have hfree := ((Config.anyValue s.draws).setWidth 32).isLt
  have hstart : st &&& 7 = st % 8 := Nat.and_two_pow_sub_one_eq_mod st 3
  have hbyte : st >>> 3 = st / 8 := Nat.shiftRight_eq_div_pow st 3
  simp only [ViewDesc.ok, State.descOf, fitsBase, decide_eq_true_eq, BitVec.toNat_ofNat, hstart, hbyte]
  split
  · rw [BitVec.toNat_ofNat]
    omega
  · omega

end Sys2Proof.Machine

namespace Sys2Proof.Machine.State

/-! ### A construction that succeeds, field by field -/

@[simp] theorem putView_none (s : State) (k : ViewIdx) : s.putView k none = s.raise .malformedGeometry := rfl

/-- The end of a construction that succeeds, but for the draw that a base which does not fit takes (log 8). -/
theorem putView_some (s : State) (k : ViewIdx) (g : Geometry) :
    ∃ n, s.putView k (some g) = { (s.setView k (s.descOf g)).complete .ok [] with draws := n } := by
  simp only [putView]
  split
  · exact ⟨_, rfl⟩
  · exact ⟨_, rfl⟩

variable (s : State) (k : ViewIdx) (g : Geometry)

@[simp] theorem putView_some_x : (s.putView k (some g)).x = s.x := by
  obtain ⟨n, h⟩ := putView_some s k g; rw [h]; rfl
@[simp] theorem putView_some_v : (s.putView k (some g)).v = s.v.set k (s.descOf g) := by
  obtain ⟨n, h⟩ := putView_some s k g; rw [h]; rfl
@[simp] theorem putView_some_status : (s.putView k (some g)).status = statusWord 0 := by
  obtain ⟨n, h⟩ := putView_some s k g; rw [h]; rfl
@[simp] theorem putView_some_mem : (s.putView k (some g)).mem = s.mem := by
  obtain ⟨n, h⟩ := putView_some s k g; rw [h]; rfl
@[simp] theorem putView_some_memBytes : (s.putView k (some g)).memBytes = s.memBytes := by
  obtain ⟨n, h⟩ := putView_some s k g; rw [h]; rfl
@[simp] theorem putView_some_inputs : (s.putView k (some g)).inputs = s.inputs := by
  obtain ⟨n, h⟩ := putView_some s k g; rw [h]; rfl
@[simp] theorem putView_some_index : (s.putView k (some g)).index = s.index := by
  obtain ⟨n, h⟩ := putView_some s k g; rw [h]; rfl
@[simp] theorem putView_some_reply : (s.putView k (some g)).reply = .response 0 := by
  obtain ⟨n, h⟩ := putView_some s k g; rw [h]; rfl
@[simp] theorem putView_some_trace : (s.putView k (some g)).trace = [] := by
  obtain ⟨n, h⟩ := putView_some s k g; rw [h]; rfl

end Sys2Proof.Machine.State
end

section
/-! PROOFS. Every way a command can end: one inductive list, and the proof that each of the 43 commands ends in one of
them. What a command may write, publish or stop on is then read off the list. -/

namespace Sys2Proof.Machine
open Sys2Proof.Claims

/-- The ways a command can end. Each constructor names the register or descriptor it may write as that of the command,
so that a frame property is a case split over nine ends and not over 43 commands. -/
inductive Ending (i : Instr) (s : State) : Result → Prop
  /-- One of its own failure conditions (60_exceptions.md R180, R182). -/
  | raised (c : Condition) (hc : c ≠ .ok) (hi : c.code ∈ failureCodes i) : Ending i s (.next (s.raise c))
  /-- A result in the destination register. -/
  | finished (rd : Reg) (hrd : destReg i = some rd) (n : Nat) : Ending i s (.next (s.finish rd n))
  /-- A free value in the destination register (41_scalar_bit_ops.md R100). -/
  | finishedAny (rd : Reg) (hrd : destReg i = some rd) : Ending i s (.next (s.finishAny rd))
  /-- One byte of `MEM` read (20_memory.md R41). -/
  | loaded (rd : Reg) (hrd : destReg i = some rd) (a : Nat) (ha : a < s.memBytes.val) (w : Xword) :
      Ending i s (.next ((s.setX rd w).complete .ok [.load a]))
  /-- One byte of `MEM` read and written (20_memory.md R46). -/
  | updated (a : Nat) (ha : a < s.memBytes.val) (b : Byte) :
      Ending i s (.next ((s.setMem (s.mem.write a b)).complete .ok [.load a, .store a b]))
  /-- A view filled (43_bit_view.md R148). -/
  | filled (k : ViewIdx) (hk : s.spanInside s.v[k] = true) (f : Bool) :
      Ending i s (.next ((s.setMem (fillBus s.v[k] f s.mem).mem).complete .ok (fillBus s.v[k] f s.mem).trace))
  /-- Two views compared by reading them (43_bit_view.md R152). -/
  | compared (rd : Reg) (hrd : destReg i = some rd) (j k : ViewIdx) (hj : s.spanInside s.v[j] = true)
      (hk : s.spanInside s.v[k] = true) (w : Xword) :
      Ending i s (.next (((s.setX rd w).drawn).complete .ok (eqReads s.v[j] s.v[k] s.draws)))
  /-- A view constructed (43_bit_view.md R140). -/
  | constructed (vd : ViewIdx) (hvd : destView i = some vd) (g : Geometry) (hg : (s.descOf g).ok s.memBytes.val) :
      Ending i s (.next (s.putView vd (some g)))
  /-- A byte address outside `MEM`, formed by a descriptor that breaks its invariant (log 10). -/
  | stopped (a : Nat) (ha : s.memBytes.val ≤ a) (k : ViewIdx) (hk : ¬ s.v[k].ok s.memBytes.val) :
      Ending i s (.fault (.noSuchByte a))

namespace Ending

variable {i : Instr} {s : State}

/-- A meaning that checks first ends as one of its two branches does. -/
theorem ite {c : Prop} [Decidable c] {a b : Result} (ha : c → Ending i s a) (hb : ¬ c → Ending i s b) :
    Ending i s (if c then a else b) := by
  split
  · next h => exact ha h
  · next h => exact hb h

/-- A checked scalar command (41_scalar_bit_ops.md R100). -/
theorem checked {c : Prop} [Decidable c] {rd : Reg} {n : Nat} (hrd : destReg i = some rd) (hi : 1 ∈ failureCodes i) :
    Ending i s (if c then .next (s.finish rd n) else .next (s.raise .outOfRange)) :=
  ite (fun _ => finished rd hrd n) (fun _ => raised .outOfRange (by decide) hi)

/-- A scalar command that may leave a free value (41_scalar_bit_ops.md R100). -/
theorem unchecked {c : Prop} [Decidable c] {rd : Reg} {n : Nat} (hrd : destReg i = some rd) :
    Ending i s (if c then .next (s.finish rd n) else .next (s.finishAny rd)) :=
  ite (fun _ => finished rd hrd n) (fun _ => finishedAny rd hrd)

/-- A bounded check (44_bounded_scalar.md R170). -/
theorem checkBound {bound : Nat} {rd rs1 : Reg} (hrd : destReg i = some rd) (hi : 1 ∈ failureCodes i) :
    Ending i s (.next (s.checkBound bound rd rs1)) := by
  rcases s.checkBound_cases bound rd rs1 with ⟨-, h⟩ | ⟨-, h⟩
  · rw [h]; exact raised .outOfRange (by decide) hi
  · rw [h]; exact finished rd hrd _

/-- A read of one byte, at an address that only a broken descriptor takes out of `MEM`. -/
theorem loadBit {rd : Reg} {a bit : Nat} (hrd : destReg i = some rd)
    (hbad : s.memBytes.val ≤ a → ∃ k : ViewIdx, ¬ s.v[k].ok s.memBytes.val) : Ending i s (s.loadBit rd a bit) :=
  ite (fun ha => loaded rd hrd a ha _) fun ha =>
    have hle := Nat.le_of_not_lt ha
    (hbad hle).elim fun k hk => stopped a hle k hk

/-- A read-modify-write of one byte, at an address that only a broken descriptor takes out of `MEM`. -/
theorem updateByte {a : Nat} {f : Nat → Nat}
    (hbad : s.memBytes.val ≤ a → ∃ k : ViewIdx, ¬ s.v[k].ok s.memBytes.val) : Ending i s (s.updateByte a f) :=
  ite (fun ha => updated a ha _) fun ha =>
    have hle := Nat.le_of_not_lt ha
    (hbad hle).elim fun k hk => stopped a hle k hk

/-- A read-modify-write after the buffer commands' own check of the address (42_buffer_bit_ops.md R130). -/
theorem updateBuffer {a : Nat} {f : Nat → Nat} (hi : 4 ∈ failureCodes i) :
    Ending i s (if a ≥ s.memBytes.val then .next (s.raise .bufferIndex) else s.updateByte a f) :=
  ite (fun _ => raised .bufferIndex (by decide) hi) fun ha => updateByte fun hle => absurd hle ha

/-- A bit of view `k` whose byte lies outside `MEM` shows that the descriptor breaks its invariant. -/
theorem exists_not_ok {k : ViewIdx} {n : Nat} (hn : ¬ n ≥ s.v[k].length.toNat)
    (hle : s.memBytes.val ≤ (split (viewflat s.v[k] n)).1) : ∃ k : ViewIdx, ¬ s.v[k].ok s.memBytes.val :=
  ⟨k, fun hok => Nat.not_lt.mpr hle (hok.byte_lt (Nat.lt_of_not_le hn))⟩

/-- A fill of a view (43_bit_view.md R148). -/
theorem fill (k : ViewIdx) (f : Bool) : Ending i s (s.fill s.v[k] f) :=
  ite (fun hk => filled k hk f) fun hk =>
    stopped _ (State.le_lastByte_of_not_spanInside hk) k fun hok => hk hok.spanInside

/-- A comparison of two views (43_bit_view.md R152). -/
theorem compareViews {rd : Reg} (j k : ViewIdx) (r : Bool → Nat) (hrd : destReg i = some rd) :
    Ending i s (s.compareViews rd s.v[j] s.v[k] r) := by
  refine ite (fun _ => ite (fun h => ?_) fun h => ?_) fun _ => finished rd hrd _
  · rw [Bool.and_eq_true] at h
    exact compared rd hrd j k h.1 h.2 _
  · by_cases hj : s.spanInside s.v[j] = true
    · have hk : ¬ s.spanInside s.v[k] = true := fun hk => h (by rw [hj, hk]; rfl)
      exact stopped _ (le_max_of_le_right (State.le_lastByte_of_not_spanInside hk)) k fun hok => hk hok.spanInside
    · exact stopped _ (le_max_of_le_left (State.le_lastByte_of_not_spanInside hj)) j fun hok => hj hok.spanInside

end Ending

/-- A construction command ends by putting the view of a geometry that construction gave, or by its condition
(43_bit_view.md R140 to R143). -/
theorem exec_of_destView {i : Instr} {vd : ViewIdx} (h : destView i = some vd) (s : State) :
    ∃ o, exec i s = .next (s.putView vd o) ∧ ∀ g, o = some g → (s.descOf g).ok s.memBytes.val := by
  cases i
  case vnew k rs1 rs2 =>
    cases h
    exact ⟨_, rfl, fun g hg => descOf_ok hg⟩
  case vnewsl k rs1 rs2 rs3 rs4 =>
    cases h
    exact ⟨_, rfl, fun g hg => descOf_ok hg⟩
  case vnews k rs1 rs2 rs3 =>
    cases h
    show ∃ o, execVnews vd rs1 rs2 rs3 s = _ ∧ _
    unfold execVnews
    split
    · exact ⟨none, rfl, fun g hg => nomatch hg⟩
    · split
      · exact ⟨none, rfl, fun g hg => nomatch hg⟩
      · exact ⟨_, rfl, fun g hg => descOf_ok hg⟩
  all_goals cases h

/-- The end of a construction command is its condition or the view constructed. -/
theorem Ending.construction {i : Instr} {vd : ViewIdx} {s : State} (h : destView i = some vd)
    (hi : 2 ∈ failureCodes i) : Ending i s (exec i s) := by
  obtain ⟨o, heq, hok⟩ := exec_of_destView h s
  rw [heq]
  cases o with
  | none => exact raised .malformedGeometry (by decide) hi
  | some g => exact constructed vd h g (hok g rfl)

/-- Every command ends in one of the ways listed, in every state. -/
theorem exec_ending (i : Instr) (s : State) : Ending i s (exec i s) := by
  cases i with
  | rdbitC | wrbitC | setbitC | clrbitC | tglbitC | rdbitsC | wrbitsC => exact .checked rfl (List.mem_cons_self ..)
  | rdbitU | wrbitU | setbitU | clrbitU | tglbitU | rdbitsU | wrbitsU | rdbitsF | wrbitsF => exact .unchecked rfl
  | rdbitF | wrbitF | setbitF | clrbitF | tglbitF => exact .finished _ rfl _
  | bget rd rs1 =>
    exact .ite (fun _ => .raised .bufferIndex (by decide) (List.mem_cons_self ..)) fun ha =>
      .loadBit rfl fun hle => absurd hle ha
  | bset | bclr | bwr => exact .updateBuffer (List.mem_cons_self ..)
  | bwrbits rs1 rs2 rs3 =>
    exact .ite (fun _ => .raised .outOfRange (by decide) (List.mem_cons_self ..)) fun _ =>
      .updateBuffer (List.mem_cons_of_mem _ (List.mem_cons_self ..))
  | vnew | vnews | vnewsl => exact .construction rfl (List.mem_cons_self ..)
  | vget rd va rs1 =>
    exact .ite (fun _ => .raised .outOfRange (by decide) (List.mem_cons_self ..)) fun hn =>
      .loadBit rfl (Ending.exists_not_ok hn)
  | vput va rs1 rs2 =>
    exact .ite (fun _ => .raised .outOfRange (by decide) (List.mem_cons_self ..)) fun hn =>
      .updateByte (Ending.exists_not_ok hn)
  | vlen | vempty => exact .finished _ rfl _
  | vclr va | vset va | vfill va => exact .fill va _
  | veq rd va vb => exact .compareViews va vb boolNat rfl
  | vne rd va vb => exact .compareViews va vb (fun equal => boolNat (!equal)) rfl
  | vequals | vhash => exact .raised .unsupported (by decide) (List.mem_cons_self ..)
  | chk3 | chk1 | chk2 => exact .checkBound rfl (List.mem_cons_self ..)

/-- What a command that answers a next state can have ended in. -/
theorem ending_of_exec_next {i : Instr} {s t : State} (h : exec i s = .next t) : Ending i s (.next t) :=
  h ▸ exec_ending i s

end Sys2Proof.Machine
end

section
/-! PROOFS. What a command, an action of the host and a step keep, publish and leave unchanged (10_state.md,
60_exceptions.md R180 to R182). -/

namespace Sys2Proof.Machine
open Sys2Proof.Claims

/-! ### Read off the list of ends -/

namespace Ending

variable {i : Instr} {s t : State}

/-- Every end keeps the invariant. -/
theorem inv (h : Ending i s (.next t)) (hs : s.Inv) : t.Inv := by
  cases h with
  | raised c => exact hs.complete c []
  | finished rd hrd n => exact (hs.setX rd _).complete .ok []
  | finishedAny rd => exact (hs.setX rd _).drawn.complete .ok []
  | loaded rd hrd a ha w => exact (hs.setX rd w).complete .ok _
  | updated a ha b => exact (hs.writeByte ha b).complete .ok _
  | filled k hk f =>
    exact (hs.setMem (Memory.fill_wf hs.canonical _ f) (fillBus_inside hk f hs.inside)).complete .ok _
  | compared rd hrd j k hj hk w => exact (hs.setX rd w).drawn.complete .ok _
  | constructed vd hvd g hg =>
    obtain ⟨n, heq⟩ := s.putView_some vd g
    have hput := (hs.setView vd hg).complete .ok []
    rw [heq]
    exact ⟨hput.views, hput.status, hput.canonical, hput.inside⟩

/-- Every end publishes one code in `STATUS` and in the response (60_exceptions.md R181). -/
theorem publishes (h : Ending i s (.next t)) :
    ∃ c : Condition, t.status = statusWord c.code ∧ t.reply = .response c.code := by
  cases h with
  | raised c => exact ⟨c, rfl, rfl⟩
  | constructed vd hvd g => exact ⟨.ok, State.putView_some_status s vd g, State.putView_some_reply s vd g⟩
  | _ => exact ⟨.ok, rfl, rfl⟩

/-- No end writes a register but the command's destination (10_state.md R21). -/
theorem other_register (h : Ending i s (.next t)) {r : Reg} (hr : destReg i ≠ some r) : t.x[r] = s.x[r] := by
  have set_other : ∀ (rd : Reg) (w : Xword), destReg i = some rd → (s.setX rd w).x[r] = s.x[r] := fun rd w hrd => by
    rw [State.setX_get, if_neg]
    rintro rfl
    exact hr hrd
  cases h with
  | finished rd hrd n => exact set_other rd _ hrd
  | finishedAny rd hrd => exact set_other rd _ hrd
  | loaded rd hrd a ha w => exact set_other rd w hrd
  | compared rd hrd j k hj hk w => exact set_other rd w hrd
  | constructed vd hvd g => rw [State.putView_some_x]
  | raised | updated | filled => rfl

/-- No end writes a descriptor but the command's destination (10_state.md R26). -/
theorem other_view (h : Ending i s (.next t)) {k : ViewIdx} (hk : destView i ≠ some k) : t.v[k] = s.v[k] := by
  cases h with
  | constructed vd hvd g =>
    have hset := State.setView_get s vd k (s.descOf g)
    have hne : vd ≠ k := by
      rintro rfl
      exact hk hvd
    rw [if_neg hne, State.setView_v] at hset
    rw [State.putView_some_v, hset]
  | _ => rfl

/-- No end changes `MEM_BYTES`, the host's list or its index (10_state.md R22). -/
theorem others (h : Ending i s (.next t)) :
    t.memBytes = s.memBytes ∧ t.inputs = s.inputs ∧ t.index = s.index := by
  cases h with
  | constructed vd hvd g => simp
  | _ => exact ⟨rfl, rfl, rfl⟩

end Ending

/-- A command reads neither `STATUS` nor the response nor the accesses left before it, and its end replaces all three
(10_state.md R28, 60_exceptions.md R181), so its outcome is the same whatever they were. -/
theorem exec_of_other_outcome (i : Instr) (s : State) (status : BitVec 32) (reply : Reply) (trace : List Access) :
    exec i { s with status := status, reply := reply, trace := trace } = exec i s := by
  cases i <;> rfl

/-! ### The host's actions (10_state.md R31) -/

/-- Ports 0 to 7 read the general registers. -/
theorem State.portRead_register {p : Port} {r : Reg} (h : p.val = r.val) (s : State) : s.portRead p = s.x[r] := by
  simp [State.portRead, h]

/-- Ports 0 to 7 write the general registers. -/
theorem State.portWrite_register {p : Port} {r : Reg} (h : p.val = r.val) (s : State) (w : Xword) :
    s.portWrite p w = s.setX r w := by
  simp [State.portWrite, h]

/-- A byte of `MEM` written by the host. -/
theorem perform_memWrite_inside {s : State} {a : Nat} (h : a < s.memBytes.val) (b : Byte) :
    perform (.memWrite a b) s = .next (s.setMem (s.mem.write a b)) := if_pos h

/-- A byte of `MEM` read by the host. -/
theorem perform_memRead_inside {s : State} {a : Nat} (h : a < s.memBytes.val) :
    perform (.memRead a) s = .next (s.answer ((s.mem.read a).setWidth 64)) := if_pos h

/-- A host write outside `MEM` is refused (log 10). -/
theorem perform_memWrite_outside {s : State} {a : Nat} (h : s.memBytes.val ≤ a) (b : Byte) :
    perform (.memWrite a b) s = .refused (.hostAddressOutsideMem a) := if_neg (Nat.not_lt.mpr h)

/-- A host read outside `MEM` is refused (log 10). -/
theorem perform_memRead_outside {s : State} {a : Nat} (h : s.memBytes.val ≤ a) :
    perform (.memRead a) s = .refused (.hostAddressOutsideMem a) := if_neg (Nat.not_lt.mpr h)

/-- A word that decodes to a command is that command. -/
theorem runCommand_command {w : CmdWord} {i : Instr} (h : decode w = .command i) (s : State) :
    runCommand w s = exec i s := by
  rw [runCommand, h]

/-- A word that decodes to none raises `IllegalCommand` (30_encoding.md R68). -/
theorem runCommand_illegal {w : CmdWord} (h : decode w = .illegal) (s : State) :
    runCommand w s = .next (s.raise .illegalCommand) := by
  rw [runCommand, h]

/-- What an action of the host that answers a next state can have done (10_state.md R31): a command or an illegal word
run, a register written or `STATUS` left, an answer shown, a byte of `MEM` written, or reset. -/
theorem perform_next {a : HostAction} {s t : State} (h : perform a s = .next t) :
    (∃ i, Ending i s (.next t)) ∨ t = s.raise .illegalCommand ∨ (∃ p w, t = s.portWrite p w) ∨
      (∃ w, t = s.answer w) ∨ (∃ n b, n < s.memBytes.val ∧ t = s.setMem (s.mem.write n b)) ∨ t = s.assertReset := by
  cases a with
  | command w =>
    change runCommand w s = .next t at h
    cases hw : decode w with
    | command i =>
      rw [runCommand_command hw] at h
      exact .inl ⟨i, ending_of_exec_next h⟩
    | illegal =>
      rw [runCommand_illegal hw] at h
      exact .inr (.inl (Host.Outcome.next.inj h).symm)
  | regWrite p w => exact .inr (.inr (.inl ⟨p, w, (Host.Outcome.next.inj h).symm⟩))
  | regRead p => exact .inr (.inr (.inr (.inl ⟨_, (Host.Outcome.next.inj h).symm⟩)))
  | memWrite n b =>
    by_cases hn : n < s.memBytes.val
    · rw [perform_memWrite_inside hn] at h
      exact .inr (.inr (.inr (.inr (.inl ⟨n, b, hn, (Host.Outcome.next.inj h).symm⟩))))
    · rw [perform_memWrite_outside (Nat.le_of_not_lt hn)] at h
      cases h
  | memRead n =>
    by_cases hn : n < s.memBytes.val
    · rw [perform_memRead_inside hn] at h
      exact .inr (.inr (.inr (.inl ⟨_, (Host.Outcome.next.inj h).symm⟩)))
    · rw [perform_memRead_outside (Nat.le_of_not_lt hn)] at h
      cases h
  | reset => exact .inr (.inr (.inr (.inr (.inr (Host.Outcome.next.inj h).symm))))

/-- Every action of the host keeps the invariant, an illegal word included. -/
theorem perform_inv {a : HostAction} {s t : State} (hs : s.Inv) (h : perform a s = .next t) : t.Inv := by
  rcases perform_next h with ⟨i, hend⟩ | rfl | ⟨p, w, rfl⟩ | ⟨w, rfl⟩ | ⟨n, b, hn, rfl⟩ | rfl
  · exact hend.inv hs
  · exact hs.complete .illegalCommand []
  · exact hs.portWrite p w
  · exact hs.answer w
  · exact hs.writeByte hn b
  · exact hs.assertReset

/-- The register port moves no index. -/
theorem State.portWrite_index (s : State) (p : Port) (w : Xword) : (s.portWrite p w).index = s.index := by
  unfold State.portWrite
  split
  · exact State.setX_index s _ w
  · rfl

/-- No action of the host counts itself: the index moves in the step alone. -/
theorem perform_index {a : HostAction} {s t : State} (h : perform a s = .next t) : t.index = s.index := by
  rcases perform_next h with ⟨i, hend⟩ | rfl | ⟨p, w, rfl⟩ | ⟨w, rfl⟩ | ⟨n, b, hn, rfl⟩ | rfl
  · obtain ⟨-, -, hindex⟩ := hend.others
    exact hindex
  · exact s.raise_index _
  · exact s.portWrite_index p w
  · exact s.answer_index w
  · exact s.setMem_index _
  · exact s.assertReset_index

/-! ### One step (10_state.md R22, 70_reset_and_hazards.md R208) -/

section
variable {s : State} {a : HostAction} {rest : List HostAction} (hin : s.inputs = a :: rest)
include hin

/-- An action that answers a next state is taken off the list. -/
theorem step_of_perform_next {t : State} (h : perform a s = .next t) : step s = .next (t.advance rest) := by
  simp only [step, hin, h]

/-- A fault of the action is passed on. -/
theorem step_of_perform_fault {f : Fault} (h : perform a s = .fault f) : step s = .fault f := by
  simp only [step, hin, h]

/-- A refusal of the action is passed on. -/
theorem step_of_perform_refused {r : Refusal} (h : perform a s = .refused r) : step s = .refused r := by
  simp only [step, hin, h]

end

/-- With no action left a step changes nothing (log 6). -/
theorem step_of_no_inputs {s : State} (hin : s.inputs = []) : step s = .next s := by
  simp only [step, hin]

/-- A step that answers a next state: the idle one, or an action performed and taken off the list. -/
theorem step_next {s t : State} (h : step s = .next t) :
    (s.inputs = [] ∧ t = s) ∨
      ∃ a rest u, s.inputs = a :: rest ∧ perform a s = .next u ∧ t = u.advance rest := by
  cases hin : s.inputs with
  | nil =>
    rw [step_of_no_inputs hin] at h
    exact .inl ⟨rfl, (Host.Outcome.next.inj h).symm⟩
  | cons a rest =>
    refine .inr ⟨a, rest, ?_⟩
    cases hp : perform a s with
    | next u =>
      rw [step_of_perform_next hin hp] at h
      exact ⟨u, rfl, rfl, (Host.Outcome.next.inj h).symm⟩
    | fault f => rw [step_of_perform_fault hin hp] at h; cases h
    | refused r => rw [step_of_perform_refused hin hp] at h; cases h

/-! ### The words the statements are said in -/

/-- Raising a condition is what the statements call `Raises` (60_exceptions.md R182). -/
theorem State.raise_raises (s : State) (c : Condition) : Raises s (s.raise c) c.code :=
  ⟨rfl, rfl, fun _ => rfl, rfl, rfl, rfl, rfl, rfl, rfl⟩

/-- A result in `x[rd]` and nothing else is what the statements call `RegisterOnly`. -/
theorem State.finish_registerOnly (s : State) (rd : Reg) (n : Nat) : RegisterOnly s (s.finish rd n) rd [] where
  otherRegisters r hr := by
    show (s.setX rd _).x[r] = _
    rw [State.setX_get, if_neg hr.symm]
  views := rfl
  memory _ := rfl
  status := rfl
  response := rfl
  accesses := rfl
  others := ⟨rfl, rfl, rfl⟩

/-- The result of a command in its destination register (10_state.md R33). -/
theorem State.finish_get (s : State) (rd : Reg) (n : Nat) : (s.finish rd n).x[rd] = BitVec.ofNat 64 n := by
  show (s.setX rd _).x[rd] = _
  rw [State.setX_get, if_pos rfl]

/-! ### Views without a bit (10_state.md R25, 43_bit_view.md R152) -/

/-- A fill of a view whose length is 0 completes without an access and changes no byte. -/
theorem State.fill_of_length_zero (s : State) {d : ViewDesc} (h : d.length = 0) (f : Bool) :
    s.fill d f = .next ((s.setMem s.mem).complete .ok []) := by
  have hspan : s.spanInside d = true := by simp [State.spanInside, h]
  rw [State.fill, if_pos hspan, fillBus_of_length_zero h]

/-- Two views whose lengths are 0 compare equal without a read. -/
theorem State.compareViews_of_length_zero (s : State) (rd : Reg) {a b : ViewDesc} (ha : a.length = 0)
    (hb : b.length = 0) (r : Bool → Nat) : s.compareViews rd a b r = .next (s.finish rd (r true)) := by
  have hreads : ¬ comparesBits a b = true := by simp [comparesBits, ha]
  have heq : vieweq s.mem a b = true := by simp [vieweq, ha, hb]
  rw [State.compareViews, if_neg hreads, heq]

end Sys2Proof.Machine
end

section
/-! PROOFS. The statements about the state, the host's actions, reset and what a command may write. -/

namespace Sys2Proof.Machine
open Sys2Proof.Claims

/-- Settles O14, from what every action of the host keeps. -/
theorem everyStepKeepsTheInvariant : Obligations.EveryStepKeepsTheInvariant := by
  unfold Obligations.EveryStepKeepsTheInvariant
  intro s t hs h
  rcases step_next h with ⟨-, rfl⟩ | ⟨a, rest, u, -, hu, rfl⟩
  · exact hs
  · exact (perform_inv hs hu).advance rest

/-- Settles O10, by the laws of `MEM`. -/
theorem hostReadsAndWritesBytesOfMem : Obligations.HostReadsAndWritesBytesOfMem := by
  unfold Obligations.HostReadsAndWritesBytesOfMem
  intro s a b hw
  have hsame := Memory.read_write_same hw a b
  refine ⟨fun ha => ⟨_, perform_memWrite_inside ha b, hsame, fun c hc => Memory.read_write_other b hc, rfl, rfl, rfl,
    _, perform_memRead_inside ha, ?_, rfl⟩, fun ha => ⟨perform_memWrite_outside ha b, perform_memRead_outside ha⟩⟩
  rw [State.answer_reply, State.setMem_mem, hsame]

/-- Settles O16: of the ways a command can end, one is a fault and none a refusal. -/
theorem commandsFaultOnlyOutsideTheInvariant : Obligations.CommandsFaultOnlyOutsideTheInvariant := by
  unfold Obligations.CommandsFaultOnlyOutsideTheInvariant
  intro i s
  have hend := exec_ending i s
  refine ⟨fun f h => ?_, fun r h => ?_⟩
  · rw [h] at hend
    cases hend with
    | stopped a ha k hk => exact ⟨⟨a, rfl, ha⟩, k, hk⟩
  · rw [h] at hend
    cases hend

/-- Settles O18, from the code every end publishes. -/
theorem everyCommandPublishesOneCode : Obligations.EveryCommandPublishesOneCode := by
  unfold Obligations.EveryCommandPublishesOneCode
  intro i s t h
  obtain ⟨c, hstatus, hreply⟩ := (ending_of_exec_next h).publishes
  exact ⟨c.code, c.code_toNat_le, hstatus, hreply⟩

/-- Settles O22, end by end. -/
theorem commandsWriteOnlyTheirDestinationRegister : Obligations.CommandsWriteOnlyTheirDestinationRegister := by
  unfold Obligations.CommandsWriteOnlyTheirDestinationRegister
  intro i s t h
  have hend := ending_of_exec_next h
  exact ⟨fun r hr => hend.other_register hr, hend.others⟩

/-- Settles O23, end by end. -/
theorem onlyConstructionWritesDescriptors : Obligations.OnlyConstructionWritesDescriptors := by
  unfold Obligations.OnlyConstructionWritesDescriptors
  intro i s t h k hk
  exact (ending_of_exec_next h).other_view hk

/-- Settles O39: a construction that raised has code 2, and one that completed holds a geometry inside `MEM`. -/
theorem constructedViewsAreInsideMem : Obligations.ConstructedViewsAreInsideMem := by
  unfold Obligations.ConstructedViewsAreInsideMem
  intro i vd s t hvd h hcode
  obtain ⟨o, hexec, hok⟩ := exec_of_destView hvd s
  rw [hexec] at h
  cases h
  cases o with
  | none =>
    have hraised : (s.raise .malformedGeometry).statusCode = 2 := State.statusCode_of_status rfl
    rw [State.putView_none, hraised] at hcode
    exact absurd hcode (by decide)
  | some g =>
    have hget := State.setView_get s vd vd (s.descOf g)
    rw [if_pos rfl, State.setView_v] at hget
    rw [State.putView_some_v, State.putView_some_memBytes, hget]
    exact hok g rfl

/-- Settles O44: the length is 0, so no index is below it, no fill plan has an entry and no comparison reads. -/
theorem defaultViewAddressesNothing : Obligations.DefaultViewAddressesNothing := by
  unfold Obligations.DefaultViewAddressesNothing
  intro rd k other rs1 rs2 s hk
  have hlength : s.v[k].length = 0 := by rw [hk]
  have hraise : ∀ (r : Result),
      (if s.operand rs1 ≥ s.v[k].length.toNat then .next (s.raise .outOfRange) else r) =
        .next (s.raise .outOfRange) := fun r => if_pos (by rw [hlength]; exact Nat.zero_le _)
  have hfill : ∀ f, ∃ t, s.fill s.v[k] f = .next t ∧
      t.trace = [] ∧ t.mem = s.mem ∧ t.x = s.x ∧ t.v = s.v ∧ t.status = 0 := fun f =>
    ⟨_, s.fill_of_length_zero hlength f, rfl, rfl, rfl, rfl, rfl⟩
  refine ⟨⟨_, rfl, s.finish_registerOnly rd _, ?_⟩, ⟨_, rfl, s.finish_registerOnly rd _, ?_⟩, ?_, ?_, fun hother => ?_⟩
  · rw [State.finish_get, hlength]; rfl
  · rw [State.finish_get, hlength]; rfl
  · intro i hi
    simp only [List.mem_cons, List.not_mem_nil, or_false] at hi
    rcases hi with rfl | rfl | rfl
    · exact hfill false
    · exact hfill true
    · exact hfill _
  · intro i hi
    simp only [List.mem_cons, List.not_mem_nil, or_false] at hi
    rcases hi with rfl | rfl
    · exact ⟨_, hraise _, s.raise_raises .outOfRange⟩
    · exact ⟨_, hraise _, s.raise_raises .outOfRange⟩
  · have hzero : s.v[other].length = 0 := BitVec.eq_of_toNat_eq hother
    exact ⟨⟨_, s.compareViews_of_length_zero rd hlength hzero _, s.finish_registerOnly rd _, s.finish_get rd _⟩,
      ⟨_, s.compareViews_of_length_zero rd hlength hzero fun equal => boolNat (!equal), s.finish_registerOnly rd _,
        s.finish_get rd _⟩⟩

/-- Settles O7: the action performed is the command its word decodes to. -/
theorem stepRunsTheDecodedCommand : Obligations.StepRunsTheDecodedCommand := by
  unfold Obligations.StepRunsTheDecodedCommand
  intro s w i rest hin hw
  have hperform : perform (.command w) s = exec i s := runCommand_command hw s
  cases he : exec i s with
  | next t => exact step_of_perform_next hin (hperform.trans he)
  | fault f => exact step_of_perform_fault hin (hperform.trans he)
  | refused r => exact step_of_perform_refused hin (hperform.trans he)

/-- Settles O8: the step moves the list and the index, the action performed neither. -/
theorem stepCountsOneAction : Obligations.StepCountsOneAction := by
  unfold Obligations.StepCountsOneAction
  intro s t h
  rcases step_next h with ⟨hin, rfl⟩ | ⟨a, rest, u, hin, hu, rfl⟩
  · exact ⟨fun a rest h => (List.cons_ne_nil a rest (h.symm.trans hin)).elim, fun _ => rfl⟩
  · refine ⟨fun a' rest' h => ?_, fun h => (List.cons_ne_nil a rest (hin.symm.trans h)).elim⟩
    obtain ⟨-, rfl⟩ := List.cons.inj (hin.symm.trans h)
    rw [State.advance_inputs, State.advance_index, perform_index hu]
    exact ⟨rfl, rfl⟩

/-- Settles O9, from what a port number names. -/
theorem registerPortReachesRegistersAndStatus : Obligations.RegisterPortReachesRegistersAndStatus := by
  unfold Obligations.RegisterPortReachesRegistersAndStatus
  intro s v
  refine ⟨fun p r hp => ⟨⟨s.setX r v, ?_, ?_, fun q hq => ?_, rfl, rfl, rfl⟩,
    ⟨_, rfl, ?_, rfl, rfl, rfl, rfl⟩⟩, rfl, ⟨_, rfl, rfl, rfl, rfl, rfl, rfl⟩⟩
  · rw [perform, State.portWrite_register hp]
  · rw [State.setX_get, if_pos rfl]
  · rw [State.setX_get, if_neg hq.symm]
  · rw [State.answer_reply, State.portRead_register hp]

/-- Settles O11: reset holds four copies of the default view. -/
theorem resetLeavesDefaultViewsAndStatusZero : Obligations.ResetLeavesDefaultViewsAndStatusZero := by
  unfold Obligations.ResetLeavesDefaultViewsAndStatusZero
  intro m
  refine ⟨fun k => ?_, rfl, rfl⟩
  rw [State.resetWith, Fin.getElem_fin, Vector.getElem_replicate]
  rfl

/-- Settles O12, from the fields that reset between commands sets. -/
theorem resetActionRestoresDefaults : Obligations.ResetActionRestoresDefaults := by
  unfold Obligations.ResetActionRestoresDefaults
  intro s
  refine ⟨s.assertReset, rfl, fun k => ?_, rfl, rfl, rfl⟩
  rw [State.assertReset_v, Fin.getElem_fin, Vector.getElem_replicate]
  rfl

/-- Settles O13, from the reset state of every memory size. -/
theorem resetStateHasInvariant : Obligations.ResetStateHasInvariant := by
  unfold Obligations.ResetStateHasInvariant
  exact ⟨State.resetWith_inv, State.resetWith_inv _⟩

/-- Settles O21, since a command's outcome does not depend on the three fields at all. -/
theorem pastOutcomesDoNotStick : Obligations.PastOutcomesDoNotStick := by
  unfold Obligations.PastOutcomesDoNotStick
  intro i s t status reply trace h
  exact (exec_of_other_outcome i s status reply trace).trans h

/-- Settles O58, by the outcome of the action and, for an illegal word, what raising a condition leaves. -/
theorem stepPerformsTheNextAction : Obligations.StepPerformsTheNextAction := by
  unfold Obligations.StepPerformsTheNextAction
  intro s a rest hin
  refine ⟨?_, fun w ha => ?_⟩
  · cases hp : perform a s with
    | next t => exact step_of_perform_next hin hp
    | fault f => exact step_of_perform_fault hin hp
    | refused r => exact step_of_perform_refused hin hp
  · subst ha
    refine ⟨rfl, fun hw => ⟨_, s.raise_raises .illegalCommand, ?_⟩⟩
    exact step_of_perform_next hin (runCommand_illegal hw s)

end Sys2Proof.Machine
end

section
/-! PROOFS. The bits of `MEM` (20_memory.md R42, R43, R56): what a flat bit is, and what a stored byte makes of it. -/

namespace Sys2Proof.Machine.Memory

/-- Flat bit `f` is bit `f mod 8` of the byte at `f / 8`. -/
theorem flatBit_eq (m : Memory) (f : Nat) : m.flatBit f = if (m.read (f / 8)).getLsbD (f % 8) then 1 else 0 := by
  rw [flatBit, split_eq, readBit_eq_testBit, BitVec.testBit_toNat]

/-- A flat bit is set exactly when its bit of its byte is. -/
theorem flatBit_eq_one_iff (m : Memory) (f : Nat) :
    m.flatBit f = 1 ↔ (m.read (f / 8)).getLsbD (f % 8) = true := by
  rw [flatBit_eq]
  split <;> simp [*]

/-- A stored byte gives its bits to its eight flat bits, and every other flat bit is kept (20_memory.md R42, R51). -/
theorem flatBit_write {m : Memory} (hm : m.wf) (a : Nat) (b : Byte) (f : Nat) :
    (m.write a b).flatBit f = if f / 8 = a then (if b.getLsbD (f % 8) then 1 else 0) else m.flatBit f := by
  by_cases ha : f / 8 = a
  · rw [if_pos ha, flatBit_eq, ha, read_write_same hm]
  · rw [if_neg ha, flatBit_eq, read_write_other b ha, flatBit_eq]

/-- The byte of flat bit `f` with that bit written (40_datapath_functions.md R86). -/
def putByte (m : Memory) (f st : Nat) : Byte :=
  BitVec.ofNat 8 (writeBit 8 (m.read (split f).1).toNat (split f).2 st)

/-- `MEM` with flat bit `f` written in its byte (20_memory.md R41, 43_bit_view.md R145). -/
def putBit (m : Memory) (f st : Nat) : Memory := m.write (split f).1 (m.putByte f st)

/-- The bits of a byte with one bit written. -/
theorem getLsbD_putByte (m : Memory) (f st : Nat) {j : Nat} (hj : j < 8) :
    (m.putByte f st).getLsbD j = if j = f % 8 then decide (st ≠ 0) else (m.read (f / 8)).getLsbD j := by
  have hbit : f % 8 < 8 := Nat.mod_lt f (by decide)
  rw [putByte, split_eq, BitVec.getLsbD_ofNat, testBit_writeBit (BitVec.isLt _) hbit, BitVec.testBit_toNat,
    decide_eq_true hj, Bool.true_and]

/-- A bit written reads as the normalised state, and no other bit of `MEM` changes (20_memory.md R51). -/
theorem flatBit_putBit {m : Memory} (hm : m.wf) (f st g : Nat) :
    (m.putBit f st).flatBit g = if g = f then norm st else m.flatBit g := by
  rw [putBit, flatBit_write hm, getLsbD_putByte m f st (Nat.mod_lt g (by decide)), split_eq]
  dsimp only
  by_cases hg : g = f
  · subst hg
    simp [norm]
  · rw [if_neg hg]
    split
    · next hbyte =>
      have hbit : g % 8 ≠ f % 8 := by omega
      rw [if_neg hbit, flatBit_eq, hbyte]
    · rfl

/-- A little-endian load begins with the byte at its address and goes on with the load one byte up. -/
theorem testBit_loadLittleEndian_succ (m : Memory) (a n i : Nat) :
    (m.loadLittleEndian a (n + 1)).testBit i =
      if i < 8 then (m.read a).getLsbD i else (m.loadLittleEndian (a + 1) n).testBit (i - 8) := by
  rw [loadLittleEndian, Nat.add_comm, ← BitVec.testBit_toNat]
  exact Nat.testBit_two_pow_mul_add _ (m.read a).isLt i

end Sys2Proof.Machine.Memory
end

section
/-! PROOFS. Fill plans (40_datapath_functions.md R98) and the accesses they make (43_bit_view.md R148). -/

namespace Sys2Proof.Machine
open Sys2Proof.Claims

/-! ### The offsets of a plan rise -/

/-- An offset of the whole-byte part of a plan is at least its first. -/
theorem le_fst_of_mem_fullBytes {first last : Nat} {e : Nat × Nat} (h : e ∈ fullBytes first last) :
    first ≤ e.1 := by
  simp only [fullBytes, List.mem_map, List.mem_range'_1] at h
  obtain ⟨k, hk, rfl⟩ := h
  exact hk.1

/-- The whole-byte part of a plan is in ascending byte order. -/
theorem fullBytes_pairwise (first last : Nat) : (fullBytes first last).Pairwise fun a b => a.1 < b.1 :=
  List.pairwise_map.mpr List.pairwise_lt_range'

/-- A fill plan is in strictly ascending byte order, so no byte has two entries (40_datapath_functions.md R98). -/
theorem fillplan_pairwise (start length : Nat) : (fillplan start length).Pairwise fun a b => a.1 < b.1 := by
  unfold fillplan
  split
  · exact .nil
  · dsimp only
    split
    · exact List.pairwise_singleton ..
    · next hlast =>
      refine List.pairwise_append.mpr ⟨List.pairwise_append.mpr ⟨?_, fullBytes_pairwise _ _, ?_⟩, ?_, ?_⟩
      · split <;> simp
      · intro a ha b hb
        have hfirst := le_fst_of_mem_fullBytes hb
        split at ha
        · next hs =>
          rw [if_pos hs] at hfirst
          rw [List.mem_singleton.mp ha]
          exact hfirst
        · cases ha
      · split <;> simp
      · intro a ha b hb
        split at hb
        · next he =>
          rw [List.mem_singleton.mp hb]
          dsimp only
          rcases List.mem_append.mp ha with hhead | hfull
          · split at hhead
            · rw [List.mem_singleton.mp hhead]
              exact Nat.pos_of_ne_zero hlast
            · cases hhead
          · have hle := fst_le_of_mem_fullBytes hfull
            rw [if_neg he] at hle
            omega
        · cases hb

/-! ### The accesses of a plan -/

/-- The accesses of a fill are those of the entries of its plan, in order. -/
theorem fillAccesses_eq_flatMap (d : ViewDesc) (byte : Nat → Byte) :
    fillAccesses d byte = (fillplan d.start.toNat d.length.toNat).flatMap fun e =>
      entryAccesses (d.base.toNat + e.1) e.2 (byte (d.base.toNat + e.1)) := rfl

/-- Both accesses of an entry are of its own byte. -/
theorem accessAddr_of_mem_entryAccesses {a e : Nat} {b : Byte} {c : Access} (h : c ∈ entryAccesses a e b) :
    accessAddr c = a := by
  rcases List.mem_append.mp h with hload | hstore
  · split at hload
    · cases hload
    · rw [List.mem_singleton.mp hload, accessAddr]
  · rw [List.mem_singleton.mp hstore, accessAddr]

/-- The one store of an entry is of its own byte. -/
theorem store_mem_entryAccesses {a e n : Nat} {b c : Byte} :
    Access.store n c ∈ entryAccesses a e b ↔ n = a ∧ c = b := by
  rw [entryAccesses]
  split <;> simp

/-- An entry makes one access, or two when its byte is not fully covered. -/
theorem length_entryAccesses (a e : Nat) (b : Byte) :
    (entryAccesses a e b).length = if e = 0xFF then 1 else 2 := by
  rw [entryAccesses]
  split <;> rfl

/-- Every access of a fill is of the byte of an entry of its plan. -/
theorem exists_entry_of_mem_fillAccesses {d : ViewDesc} {byte : Nat → Byte} {c : Access}
    (h : c ∈ fillAccesses d byte) :
    ∃ e ∈ fillplan d.start.toNat d.length.toNat, accessAddr c = d.base.toNat + e.1 := by
  rw [fillAccesses_eq_flatMap] at h
  obtain ⟨e, he, hc⟩ := List.mem_flatMap.mp h
  exact ⟨e, he, accessAddr_of_mem_entryAccesses hc⟩

/-- A fill stores to exactly the bytes of its plan. -/
theorem store_mem_fillAccesses {d : ViewDesc} {byte : Nat → Byte} {a : Nat} {b : Byte} :
    Access.store a b ∈ fillAccesses d byte ↔
      b = byte a ∧ ∃ e ∈ fillplan d.start.toNat d.length.toNat, a = d.base.toNat + e.1 := by
  simp only [fillAccesses_eq_flatMap, List.mem_flatMap, store_mem_entryAccesses]
  constructor
  · rintro ⟨e, he, rfl, rfl⟩
    exact ⟨rfl, e, he, rfl⟩
  · rintro ⟨rfl, e, he, rfl⟩
    exact ⟨e, he, rfl, rfl⟩

/-- A view without a bit has an empty plan. -/
theorem fillAccesses_of_length_zero {d : ViewDesc} (h : d.length.toNat = 0) (byte : Nat → Byte) :
    fillAccesses d byte = [] := by
  rw [fillAccesses_eq_flatMap, fillplan, if_pos h, List.flatMap_nil]

/-- A fill goes through its bytes in ascending order. -/
theorem fillAccesses_ascending (d : ViewDesc) (byte : Nat → Byte) :
    ((fillAccesses d byte).map accessAddr).Pairwise (· ≤ ·) := by
  rw [List.pairwise_map, fillAccesses_eq_flatMap, List.pairwise_flatMap]
  refine ⟨fun e _ => ?_, (fillplan_pairwise _ _).imp fun hlt c hc c' hc' => ?_⟩
  · refine List.pairwise_of_forall_mem_list fun c hc c' hc' => ?_
    rw [accessAddr_of_mem_entryAccesses hc, accessAddr_of_mem_entryAccesses hc']
  · rw [accessAddr_of_mem_entryAccesses hc, accessAddr_of_mem_entryAccesses hc']
    omega

/-! ### How many accesses a plan makes -/

/-- The number of accesses the entries of a plan make: one for a fully covered byte, two for any other. -/
def planCost (plan : List (Nat × Nat)) : Nat := (plan.map fun e => if e.2 = 0xFF then 1 else 2).sum

/-- A fill makes as many accesses as its plan costs. -/
theorem length_fillAccesses (d : ViewDesc) (byte : Nat → Byte) :
    (fillAccesses d byte).length = planCost (fillplan d.start.toNat d.length.toNat) := by
  simp only [fillAccesses_eq_flatMap, List.length_flatMap, length_entryAccesses, planCost]

/-- The parts of a plan cost what they cost apart. -/
theorem planCost_append (p q : List (Nat × Nat)) : planCost (p ++ q) = planCost p + planCost q := by
  simp only [planCost, List.map_append, List.sum_append]

/-- One entry costs at most two accesses. -/
theorem planCost_singleton_le (e : Nat × Nat) : planCost [e] ≤ 2 := by
  simp only [planCost, List.map_cons, List.map_nil, List.sum_cons, List.sum_nil]
  split <;> decide

/-- An entry that a condition may leave out costs at most two accesses, none when it is left out. -/
theorem planCost_optional_le (c : Prop) [Decidable c] (e : Nat × Nat) :
    planCost (if c then [e] else []) ≤ if c then 2 else 0 := by
  split
  · exact planCost_singleton_le e
  · exact Nat.le_refl 0

/-- The whole-byte part of a plan costs one access a byte. -/
theorem planCost_fullBytes (first last : Nat) : planCost (fullBytes first last) = last + 1 - first := by
  simp [planCost, fullBytes, List.map_map, Function.comp_def]

/-- A plan costs at most two accesses more than the bytes its view spans: only the first and the last can be partial
(70_reset_and_hazards.md R209). -/
theorem planCost_fillplan_le (start length : Nat) :
    planCost (fillplan start length) ≤ (start + length + 7) / 8 + 2 := by
  unfold fillplan
  split
  · exact Nat.zero_le _
  · dsimp only
    have hlast : (start + length - 1) >>> 3 = (start + length - 1) / 8 := Nat.shiftRight_eq_div_pow _ 3
    have hrest : (start + length) &&& 7 = (start + length) % 8 := Nat.and_two_pow_sub_one_eq_mod _ 3
    rw [hlast, hrest]
    split
    · exact (planCost_singleton_le _).trans (Nat.le_add_left ..)
    · rw [planCost_append, planCost_append, planCost_fullBytes]
      have hhead := planCost_optional_le (start ≠ 0) (0, headmask start)
      have htail := planCost_optional_le ((start + length) % 8 ≠ 0)
        ((start + length - 1) / 8, tailmask ((start + length) % 8))
      split_ifs at hhead htail ⊢ <;> omega

/-! ### What a fill does at the port -/

/-- A plan in ascending order stores once to each of its bytes, so one function of the address gives every byte
stored. -/
theorem exists_trace_foldl_fillByte (base : Nat) (f : Bool) {plan : List (Nat × Nat)}
    (hp : plan.Pairwise fun a b => a.1 < b.1) : ∀ p : Bus, ∃ byte : Nat → Byte,
      (plan.foldl (fillByte base f) p).trace =
        p.trace ++ plan.flatMap fun e => entryAccesses (base + e.1) e.2 (byte (base + e.1)) := by
  induction plan with
  | nil => exact fun p => ⟨fun _ => 0, (List.append_nil _).symm⟩
  | cons x plan ih =>
    intro p
    obtain ⟨hx, hplan⟩ := List.pairwise_cons.mp hp
    obtain ⟨byte, htrace⟩ := ih hplan (fillByte base f p x)
    have hrest : ∀ (b : Byte), ∀ e ∈ plan,
        entryAccesses (base + e.1) e.2 (byte (base + e.1)) =
          entryAccesses (base + e.1) e.2 (Function.update byte (base + x.1) b (base + e.1)) := fun b e he => by
      have hlt := hx e he
      rw [Function.update_of_ne (by omega)]
    refine ⟨Function.update byte (base + x.1) (filledByte f x.2 (p.mem.read (base + x.1))), ?_⟩
    rw [List.foldl_cons, htrace, List.flatMap_cons, Function.update_self, List.flatMap_congr (hrest _), fillByte_eq,
      List.append_assoc]

/-- A fill makes the accesses of its plan, with some byte stored at each address (43_bit_view.md R148). -/
theorem fillBus_trace (d : ViewDesc) (f : Bool) (m : Memory) :
    ∃ byte, (fillBus d f m).trace = fillAccesses d byte :=
  exists_trace_foldl_fillByte d.base.toNat f (fillplan_pairwise _ _) { mem := m, trace := [] }

/-- In a memory of canonical form the bytes stored are those that the fill leaves. -/
theorem fillBus_trace_of_wf {m : Memory} (hm : m.wf) (d : ViewDesc) (f : Bool) :
    (fillBus d f m).trace = fillAccesses d (fillBus d f m).mem.read := by
  obtain ⟨-, -, htrace⟩ := fillPlan_fold d.base.toNat f _ { mem := m, trace := [] } hm (fillplan_pairwise _ _)
  exact htrace

/-- A byte that a fill does not store is as it was. -/
theorem fillBus_read_of_not_stored {d : ViewDesc} {f : Bool} {m : Memory} {a : Nat}
    (h : ∀ b, Access.store a b ∉ (fillBus d f m).trace) : (fillBus d f m).mem.read a = m.read a := by
  obtain ⟨byte, htrace⟩ := fillBus_trace d f m
  rw [htrace] at h
  refine Memory.fill_induction (P := fun m' => m'.read a = m.read a) (fun m' e b he hread => ?_) _ rfl
  rw [Memory.read_write_other b, hread]
  exact fun ha => h (byte a) (store_mem_fillAccesses.mpr ⟨rfl, e, he, ha⟩)

end Sys2Proof.Machine
end

section
/-! PROOFS. The accesses of every command: in `MEM`, in the spans of the views it names, and at the addresses of its
rule (20_memory.md R41, R46, R55). -/

namespace Sys2Proof.Machine
open Sys2Proof.Claims

/-! ### Spans (20_memory.md R55) -/

/-- The span of a view, in numbers. -/
theorem ViewDesc.spans_iff (d : ViewDesc) (a : Nat) :
    d.spans a = true ↔ d.length.toNat ≠ 0 ∧ d.base.toNat ≤ a ∧
      a ≤ d.base.toNat + (d.start.toNat + d.length.toNat - 1) / 8 := by
  simp only [ViewDesc.spans, ViewDesc.lastByte, Nat.shiftRight_eq_div_pow, Bool.and_eq_true, bne_iff_ne,
    decide_eq_true_eq, and_assoc, Nat.reducePow, ne_eq, ← BitVec.toNat_inj, BitVec.ofNat_eq_ofNat, BitVec.toNat_zero]

/-- Accesses lie in the spans of views when each address does. -/
theorem inSpans_iff (l : List Access) (views : List ViewDesc) :
    inSpans l views ↔ ∀ c ∈ l, ∃ d ∈ views, d.spans (accessAddr c) = true := by
  simp only [inSpans, ViewDesc.spans_iff]

/-- The byte of a bit of a view lies in the span of the view. -/
theorem ViewDesc.spans_viewflat {d : ViewDesc} {n : Nat} (h : n < d.length.toNat) :
    d.spans (split (viewflat d n)).1 = true := by
  rw [spans_iff, split_eq, viewflat]
  omega

/-- Every access of a fill lies in the span of its view. -/
theorem ViewDesc.spans_of_mem_fillAccesses {d : ViewDesc} {byte : Nat → Byte} {c : Access}
    (h : c ∈ fillAccesses d byte) : d.spans (accessAddr c) = true := by
  have hlength : d.length.toNat ≠ 0 := fun h0 => by
    rw [fillAccesses_of_length_zero h0] at h
    cases h
  obtain ⟨e, he, haddr⟩ := exists_entry_of_mem_fillAccesses h
  have hle := fst_le_of_mem_fillplan he
  rw [Nat.shiftRight_eq_div_pow] at hle
  rw [spans_iff, haddr]
  exact ⟨hlength, Nat.le_add_right .., Nat.add_le_add_left hle _⟩

/-- Every access that a fill makes at the port lies in the span of its view. -/
theorem ViewDesc.spans_of_mem_fillBus_trace {d : ViewDesc} {f : Bool} {m : Memory} {c : Access}
    (h : c ∈ (fillBus d f m).trace) : d.spans (accessAddr c) = true := by
  obtain ⟨byte, htrace⟩ := fillBus_trace d f m
  rw [htrace] at h
  exact spans_of_mem_fillAccesses h

/-- A span that a command has found in `MEM` holds bytes of `MEM` only. -/
theorem State.lt_memBytes_of_spans {s : State} {d : ViewDesc} {a : Nat} (hd : s.spanInside d = true)
    (h : d.spans a = true) : a < s.memBytes.val := by
  simp only [ViewDesc.spans, Bool.and_eq_true, bne_iff_ne, decide_eq_true_eq] at h
  simp only [State.spanInside, Bool.or_eq_true, beq_iff_eq, decide_eq_true_eq] at hd
  obtain ⟨⟨hlength, -⟩, hlast⟩ := h
  exact Nat.lt_of_le_of_lt hlast (hd.resolve_left hlength)

/-- A comparison reads bytes of the two spans and does nothing else at the port (43_bit_view.md R152). -/
theorem mem_eqReads {a b : ViewDesc} {n : Nat} {c : Access} (h : c ∈ eqReads a b n) :
    ∃ p, c = .load p ∧ (a.spans p = true ∨ b.spans p = true) := by
  obtain ⟨p, hp, rfl⟩ := List.mem_map.mp h
  exact ⟨p, rfl, Bool.or_eq_true_iff.mp (List.mem_filter.mp hp).2⟩

/-- The reads of a comparison whose views have the same length, not 0, are as the rule says. -/
theorem comparisonReads_eqReads {a b : ViewDesc} (h : comparesBits a b = true) (n : Nat) :
    comparisonReads a b (eqReads a b n) := by
  simp only [comparesBits, Bool.and_eq_true, beq_iff_eq, bne_iff_ne] at h
  obtain ⟨hsame, hlength⟩ := h
  refine ⟨fun c hc => ?_, (inSpans_iff _ _).mpr fun c hc => ?_, fun hnone => ?_⟩
  · obtain ⟨p, rfl, -⟩ := mem_eqReads hc
    exact ⟨p, rfl⟩
  · obtain ⟨p, rfl, ha | hb⟩ := mem_eqReads hc
    · exact ⟨a, by simp, ha⟩
    · exact ⟨b, by simp, hb⟩
  · exact (hnone.elim (fun hne => hne hsame) hlength).elim

/-- A comparison that reads nothing is as the rule says. -/
theorem comparisonReads_nil (a b : ViewDesc) : comparisonReads a b [] :=
  ⟨fun _ hc => (List.not_mem_nil hc).elim, fun _ hc => (List.not_mem_nil hc).elim, fun _ => rfl⟩

/-! ### Read off the list of ends -/

namespace Ending

variable {i : Instr} {s t : State}

/-- Every access of every end is of a byte of `MEM` (20_memory.md R41). -/
theorem accessAddr_lt (h : Ending i s (.next t)) {c : Access} (hc : c ∈ t.trace) :
    accessAddr c < s.memBytes.val := by
  cases h with
  | raised | finished | finishedAny => cases hc
  | constructed vd hvd g =>
    rw [State.putView_some_trace] at hc
    cases hc
  | loaded rd hrd a ha w =>
    rw [State.complete_trace, List.mem_singleton] at hc
    rw [hc]
    exact ha
  | updated a ha b =>
    rw [State.complete_trace, List.mem_pair] at hc
    rcases hc with rfl | rfl
    · exact ha
    · exact ha
  | filled k hk f => exact State.lt_memBytes_of_spans hk (ViewDesc.spans_of_mem_fillBus_trace hc)
  | compared rd hrd j k hj hk w =>
    obtain ⟨p, rfl, hp | hp⟩ := mem_eqReads hc
    · exact State.lt_memBytes_of_spans hj hp
    · exact State.lt_memBytes_of_spans hk hp

/-- A byte that no store names is as it was (20_memory.md R46). -/
theorem read_of_not_stored (h : Ending i s (.next t)) {a : Nat} (ha : ∀ b, Access.store a b ∉ t.trace) :
    t.mem.read a = s.mem.read a := by
  cases h with
  | constructed vd hvd g => rw [State.putView_some_mem]
  | updated n hn b =>
    refine Memory.read_write_other b fun he => ha b ?_
    simp [he]
  | filled k hk f => exact fillBus_read_of_not_stored ha
  | raised | finished | finishedAny | loaded | compared => rfl

/-- A byte that a store names reads as the byte stored (20_memory.md R51). -/
theorem read_of_stored (h : Ending i s (.next t)) (hw : s.mem.wf) {a : Nat} {b : Byte}
    (hst : Access.store a b ∈ t.trace) : t.mem.read a = b := by
  cases h with
  | raised | finished | finishedAny => cases hst
  | constructed vd hvd g =>
    rw [State.putView_some_trace] at hst
    cases hst
  | loaded rd hrd n hn w => simp at hst
  | compared rd hrd j k hj hk w =>
    obtain ⟨p, hp, -⟩ := mem_eqReads hst
    cases hp
  | updated n hn c =>
    obtain ⟨rfl, rfl⟩ : a = n ∧ b = c := by simpa using hst
    exact Memory.read_write_same hw a b
  | filled k hk f =>
    rw [State.complete_trace, fillBus_trace_of_wf hw] at hst
    obtain ⟨rfl, -⟩ := store_mem_fillAccesses.mp hst
    rfl

end Ending

/-! ### The accesses each command's rule gives -/

/-- A result that, where it is a next state, raised a condition without an access or made accesses that have the
property. -/
def RaisedOrMade (P : List Access → Prop) (r : Result) : Prop :=
  ∀ t, r = .next t → (t.statusCode ≠ 0 ∧ t.trace = []) ∨ P t.trace

namespace RaisedOrMade

variable {P : List Access → Prop} {s : State}

/-- A meaning that checks first does as one of its two branches. -/
theorem ite {c : Prop} [Decidable c] {a b : Result} (ha : c → RaisedOrMade P a) (hb : ¬ c → RaisedOrMade P b) :
    RaisedOrMade P (if c then a else b) := by
  split
  · next h => exact ha h
  · next h => exact hb h

/-- A condition raised (60_exceptions.md R182). -/
theorem raised {c : Condition} (hc : c ≠ .ok) : RaisedOrMade P (.next (s.raise c)) := by
  rintro t ⟨⟩
  have hcode : (s.raise c).statusCode = c.code := State.statusCode_of_status rfl
  refine .inl ⟨?_, rfl⟩
  rw [hcode]
  cases c
  case ok => exact absurd rfl hc
  all_goals decide

/-- A next state with these accesses. -/
theorem made {t : State} (h : P t.trace) : RaisedOrMade P (.next t) := by
  rintro t ⟨⟩
  exact .inr h

/-- One byte read. -/
theorem loadBit {rd : Reg} {a bit : Nat} (h : P [.load a]) : RaisedOrMade P (s.loadBit rd a bit) := fun t ht => by
  obtain ⟨-, rfl⟩ := State.loadBit_next ht
  exact .inr h

/-- One byte read and written. -/
theorem updateByte {a : Nat} {f : Nat → Nat} (h : ∀ b, P [.load a, .store a b]) :
    RaisedOrMade P (s.updateByte a f) := fun t ht => by
  obtain ⟨-, rfl⟩ := State.updateByte_next ht
  exact .inr (h _)

/-- One byte read and written after the check of a buffer command (42_buffer_bit_ops.md R130). -/
theorem updateBuffer {a : Nat} {f : Nat → Nat} (h : ∀ b, P [.load a, .store a b]) :
    RaisedOrMade P (if a ≥ s.memBytes.val then .next (s.raise .bufferIndex) else s.updateByte a f) :=
  ite (fun _ => raised (by decide)) fun _ => updateByte h

/-- A view filled (43_bit_view.md R148). -/
theorem fill {d : ViewDesc} {f : Bool} (h : ∀ byte, P (fillAccesses d byte)) :
    RaisedOrMade P (s.fill d f) := fun t ht => by
  obtain ⟨-, rfl⟩ := State.fill_next ht
  obtain ⟨byte, htrace⟩ := fillBus_trace d f s.mem
  rw [State.complete_trace, htrace]
  exact .inr (h byte)

/-- Two views compared (43_bit_view.md R152). -/
theorem compareViews {rd : Reg} {a b : ViewDesc} {r : Bool → Nat} (h : ∀ l, comparisonReads a b l → P l) :
    RaisedOrMade P (s.compareViews rd a b r) := fun t ht => by
  rcases State.compareViews_next ht with ⟨hbits, -, -, rfl⟩ | ⟨-, rfl⟩
  · exact .inr (h _ (comparisonReads_eqReads hbits _))
  · exact .inr (h _ (comparisonReads_nil a b))

/-- A bounded check (44_bounded_scalar.md R170). -/
theorem checkBound {bound : Nat} {rd rs1 : Reg} (h : P []) : RaisedOrMade P (.next (s.checkBound bound rd rs1)) := by
  rcases s.checkBound_cases bound rd rs1 with ⟨-, heq⟩ | ⟨-, heq⟩
  · rw [heq]; exact raised (by decide)
  · rw [heq]; exact made h

/-- A construction command (43_bit_view.md R140). -/
theorem construction {i : Instr} {vd : ViewIdx} (hvd : destView i = some vd) (h : P []) :
    RaisedOrMade P (exec i s) := by
  obtain ⟨o, heq, -⟩ := exec_of_destView hvd s
  rw [heq]
  cases o with
  | none => exact raised (by decide)
  | some g => exact made (by rwa [State.putView_some_trace])

end RaisedOrMade

/-- Accesses as the rule of a command says: at its addresses, and in the spans of the views it names. -/
def Conform (i : Instr) (s : State) (l : List Access) : Prop :=
  (∃ byte : Nat → Byte, accessesOf i s byte l) ∧ ∀ views, viewsOf i s = some views → inSpans l views

namespace Conform

variable {s : State} {k : ViewIdx} {rs1 : Reg}

/-- Accesses of a command that names no view, or touches none of its bits. -/
theorem of_no_view {i : Instr} (byte : Nat → Byte) {l : List Access} (hv : viewsOf i s = none)
    (h : accessesOf i s byte l) : Conform i s l :=
  ⟨⟨byte, h⟩, fun _ hviews => nomatch hv.symm.trans hviews⟩

/-- The read of `VGET` below the length of its view (43_bit_view.md R144). -/
theorem vget {rd : Reg} (h : s.operand rs1 < s.v[k].length.toNat) :
    Conform (.vget rd k rs1) s [.load (split (viewflat s.v[k] (s.operand rs1))).1] := by
  refine ⟨⟨fun _ => 0, rfl⟩, ?_⟩
  rintro _ ⟨⟩
  rw [inSpans_iff]
  simpa [accessAddr] using ViewDesc.spans_viewflat h

/-- The read and the write of `VPUT` below the length of its view (43_bit_view.md R145). -/
theorem vput {rs2 : Reg} (h : s.operand rs1 < s.v[k].length.toNat) (b : Byte) :
    Conform (.vput k rs1 rs2) s [.load (split (viewflat s.v[k] (s.operand rs1))).1,
      .store (split (viewflat s.v[k] (s.operand rs1))).1 b] := by
  refine ⟨⟨fun _ => b, rfl⟩, ?_⟩
  rintro _ ⟨⟩
  rw [inSpans_iff]
  simpa [accessAddr] using ViewDesc.spans_viewflat h

/-- The accesses of a fill, for each of the three fills (43_bit_view.md R149 to R151). -/
theorem fill {i : Instr} (hi : i = .vclr k ∨ i = .vset k ∨ ∃ rs1, i = .vfill k rs1) (byte : Nat → Byte) :
    Conform i s (fillAccesses s.v[k] byte) := by
  have haccesses : accessesOf (.vclr k) s byte (fillAccesses s.v[k] byte) :=
    ⟨rfl, fun h => fillAccesses_of_length_zero h byte, (length_fillAccesses _ _).trans_le (planCost_fillplan_le _ _),
      fillAccesses_ascending _ _⟩
  have hspans : inSpans (fillAccesses s.v[k] byte) [s.v[k]] := (inSpans_iff _ _).mpr fun c hc =>
    ⟨_, List.mem_singleton_self _, ViewDesc.spans_of_mem_fillAccesses hc⟩
  rcases hi with rfl | rfl | ⟨rs1, rfl⟩
  all_goals exact ⟨⟨byte, haccesses⟩, fun views hviews => Option.some.inj hviews ▸ hspans⟩

/-- The reads of a comparison, for both (43_bit_view.md R153, R154). -/
theorem compare {i : Instr} {rd : Reg} {j : ViewIdx} (hi : i = .veq rd j k ∨ i = .vne rd j k) {l : List Access}
    (h : comparisonReads s.v[j] s.v[k] l) : Conform i s l := by
  have ⟨_, hspans, _⟩ := h
  rcases hi with rfl | rfl
  all_goals exact ⟨⟨fun _ => 0, h⟩, fun views hviews => Option.some.inj hviews ▸ hspans⟩

end Conform

/-- Every command that does not raise a condition makes the accesses of its rule (20_memory.md R46, R55). -/
theorem exec_conform (i : Instr) (s : State) : RaisedOrMade (Conform i s) (exec i s) := by
  cases i with
  | rdbitC | wrbitC | setbitC | clrbitC | tglbitC | rdbitsC | wrbitsC =>
    exact .ite (fun _ => .made (.of_no_view (fun _ => 0) rfl rfl)) fun _ => .raised (by decide)
  | rdbitU | wrbitU | setbitU | clrbitU | tglbitU | rdbitsU | wrbitsU | rdbitsF | wrbitsF =>
    exact .ite (fun _ => .made (.of_no_view (fun _ => 0) rfl rfl)) fun _ => .made (.of_no_view (fun _ => 0) rfl rfl)
  | rdbitF | wrbitF | setbitF | clrbitF | tglbitF | vlen | vempty => exact .made (.of_no_view (fun _ => 0) rfl rfl)
  | bget => exact .ite (fun _ => .raised (by decide)) fun _ => .loadBit (.of_no_view (fun _ => 0) rfl rfl)
  | bset | bclr | bwr => exact .updateBuffer fun b => .of_no_view (fun _ => b) rfl rfl
  | bwrbits =>
    exact .ite (fun _ => .raised (by decide)) fun _ => .updateBuffer fun b => .of_no_view (fun _ => b) rfl rfl
  | vnew | vnews | vnewsl => exact .construction rfl (.of_no_view (fun _ => 0) rfl rfl)
  | vget => exact .ite (fun _ => .raised (by decide)) fun hn => .loadBit (.vget (Nat.lt_of_not_le hn))
  | vput => exact .ite (fun _ => .raised (by decide)) fun hn => .updateByte (.vput (Nat.lt_of_not_le hn))
  | vclr => exact .fill (.fill (.inl rfl))
  | vset => exact .fill (.fill (.inr (.inl rfl)))
  | vfill va rs1 => exact .fill (.fill (.inr (.inr ⟨rs1, rfl⟩)))
  | veq => exact .compareViews (r := boolNat) fun _ => Conform.compare (.inl rfl)
  | vne => exact .compareViews (r := fun equal => boolNat (!equal)) fun _ => Conform.compare (.inr rfl)
  | vequals | vhash => exact .raised (by decide)
  | chk3 | chk1 | chk2 => exact .checkBound (.of_no_view (fun _ => 0) rfl rfl)

/-! ### One bit of a view (43_bit_view.md R144, R145) -/

section
variable {s : State} {k : ViewIdx} {rs1 : Reg} (hok : s.v[k].ok s.memBytes.val)
  (hn : s.operand rs1 < s.v[k].length.toNat)
include hok hn

/-- `VGET` below the length of a view inside `MEM` reads the flat bit of the view bit. -/
theorem exec_vget_of_lt (rd : Reg) :
    exec (.vget rd k rs1) s =
      .next ((s.setX rd (BitVec.ofNat 64 (s.mem.flatBit (viewflat s.v[k] (s.operand rs1))))).complete .ok
        [.load (split (viewflat s.v[k] (s.operand rs1))).1]) := by
  have hbyte : (split (viewflat s.v[k] (s.operand rs1))).1 < s.memBytes.val := hok.byte_lt hn
  show execVget rd k rs1 s = _
  rw [execVget, if_neg (Nat.not_le.mpr hn), State.loadBit, if_pos hbyte, Memory.flatBit]

/-- `VPUT` below the length of a view inside `MEM` writes the flat bit of the view bit. -/
theorem exec_vput_of_lt (rs2 : Reg) :
    exec (.vput k rs1 rs2) s =
      .next ((s.setMem (s.mem.putBit (viewflat s.v[k] (s.operand rs1)) (s.operand rs2))).complete .ok
        [.load (split (viewflat s.v[k] (s.operand rs1))).1, .store (split (viewflat s.v[k] (s.operand rs1))).1
          (s.mem.putByte (viewflat s.v[k] (s.operand rs1)) (s.operand rs2))]) := by
  have hbyte : (split (viewflat s.v[k] (s.operand rs1))).1 < s.memBytes.val := hok.byte_lt hn
  show execVput k rs1 rs2 s = _
  rw [execVput, if_neg (Nat.not_le.mpr hn), State.updateByte, if_pos hbyte, Memory.putBit, Memory.putByte]

end

/-- A normalised state read from a register, as what a register holds (40_datapath_functions.md R84). -/
theorem State.ofNat_norm_operand (s : State) (r : Reg) :
    BitVec.ofNat 64 (norm (s.operand r)) = if s.x[r] = 0 then 0 else 1 := by
  have hzero : s.operand r = 0 ↔ s.x[r] = 0 := BitVec.toNat_inj (y := 0)
  simp only [norm, ne_eq, hzero, ite_not]
  split <;> rfl

end Sys2Proof.Machine
end

section
/-! PROOFS. The statements about `MEM` and the accesses of commands (20_memory.md). -/

namespace Sys2Proof.Machine
open Sys2Proof.Claims

/-- Settles O24: the accesses by the rule of each command, the bytes by the list of ends. -/
theorem accessesOfEachCommand : Obligations.AccessesOfEachCommand := by
  unfold Obligations.AccessesOfEachCommand
  intro i s t h hcode
  have hend := ending_of_exec_next h
  refine ⟨?_, fun a ha => hend.read_of_not_stored ha, fun hw a b hst => hend.read_of_stored hw hst⟩
  rcases exec_conform i s t h with ⟨hraised, -⟩ | ⟨haccesses, -⟩
  · exact absurd hcode hraised
  · exact haccesses

/-- Settles O25: addresses by the list of ends, spans by the rule of each command; a condition raised makes no
access. -/
theorem accessesStayInMemAndInSpans : Obligations.AccessesStayInMemAndInSpans := by
  unfold Obligations.AccessesStayInMemAndInSpans
  intro i s t h
  refine ⟨fun c hc => (ending_of_exec_next h).accessAddr_lt hc, fun views hviews => ?_⟩
  rcases exec_conform i s t h with ⟨-, hnone⟩ | ⟨-, hspans⟩
  · rw [hnone]
    exact fun _ hc => (List.not_mem_nil hc).elim
  · exact hspans views hviews

/-- Settles O42: the bit that `VPUT` writes is the flat bit that `VGET` reads. -/
theorem aliasedViewsSeeTheSameBit : Obligations.AliasedViewsSeeTheSameBit := by
  unfold Obligations.AliasedViewsSeeTheSameBit
  intro va vb ri rs rj rd s hw hva hvb hi hj hsame
  refine ⟨_, exec_vput_of_lt hva hi rs, ?_⟩
  have hflat : viewflat s.v[vb] (s.operand rj) = viewflat s.v[va] (s.operand ri) := hsame.symm
  generalize ht : (s.setMem _).complete .ok _ = t
  have hx : t.x = s.x := by rw [← ht]; rfl
  have hv : t.v = s.v := by rw [← ht]; rfl
  have hmem : t.mem = s.mem.putBit (viewflat s.v[va] (s.operand ri)) (s.operand rs) := by rw [← ht]; rfl
  have hbytes : t.memBytes = s.memBytes := by rw [← ht]; rfl
  have hindex : t.operand rj = s.operand rj := by rw [State.operand, hx, State.operand]
  have hread : t.mem.flatBit (viewflat t.v[vb] (t.operand rj)) = norm (s.operand rs) := by
    rw [hmem, Memory.flatBit_putBit hw, hindex, hv, if_pos hflat]
  refine ⟨_, exec_vget_of_lt (by rwa [hv, hbytes]) (by rwa [hindex, hv]) rd, ?_⟩
  dsimp only
  rw [State.complete_x, State.setX_get, if_pos rfl, hread, State.ofNat_norm_operand]

/-- Settles O57, by induction on the number of bytes. -/
theorem littleEndianLoadAgreesWithFlatBits : Obligations.LittleEndianLoadAgreesWithFlatBits := by
  unfold Obligations.LittleEndianLoadAgreesWithFlatBits
  intro m a n
  induction n generalizing a with
  | zero => exact fun i hi => absurd hi (Nat.not_lt_zero i)
  | succ n ih =>
    intro i hi
    rw [Memory.testBit_loadLittleEndian_succ]
    split
    · next hlow =>
      have hbyte : (8 * a + i) / 8 = a := by omega
      have hbit : (8 * a + i) % 8 = i := by omega
      simp only [Memory.flatBit_eq_one_iff, hbyte, hbit, Bool.decide_eq_true]
    · next hhigh =>
      have hflat : 8 * (a + 1) + (i - 8) = 8 * a + i := by omega
      rw [ih (a + 1) (i - 8) (by omega), hflat]

end Sys2Proof.Machine
end

section
/-! PROOFS. The opcode table against the field rules: a word hits a row exactly when its fields are the opcode and variant
of the row, operands in the fields the opcode uses, and zeros elsewhere (30_encoding.md R60, R65, R67, R68). -/

namespace Sys2Proof

/-! ### Fields of a word -/

/-- Two words are the same when their fields are. -/
theorem packFields_inj {f g : Fields} : packFields f = packFields g ↔ f = g :=
  ⟨fun h => by rw [← fieldsOf_packFields f, h, fieldsOf_packFields], congrArg packFields⟩

/-- Every `wsel` is the one of the width it selects (R62). -/
@[simp] theorem wselOf_widthOf : ∀ b : BitVec 2, wselOf (widthOf b) = b := by
  decide

@[simp] theorem regField_regOf (b : BitVec 3) : regField (regOf b) = b := rfl

@[simp] theorem viewField_viewOf (b : BitVec 2) : viewField (viewOf b) = b := rfl

/-! ### The fields an opcode uses (R65) -/

/-- A major opcode leaves an operand field unused (R67, column "used fields"). -/
def leavesUnused (op : BitVec 6) (x : OperandField) : Bool := ((unusedFields op.toNat).getD []).contains x

/-- The fields `f` with this opcode and variant, and zero in every field the opcode does not use. -/
def Fields.onlyUsed (op : BitVec 6) (var : BitVec 2) (f : Fields) : Fields where
  op := op
  var := var
  wsel := if !isScalarOp op.toNat then 0 else f.wsel
  rd := if leavesUnused op .rd then 0 else f.rd
  rs1 := if leavesUnused op .rs1 then 0 else f.rs1
  rs2 := if leavesUnused op .rs2 then 0 else f.rs2
  rs3 := if leavesUnused op .rs3 then 0 else f.rs3
  rs4 := if leavesUnused op .rs4 then 0 else f.rs4
  va := if leavesUnused op .va then 0 else f.va
  vb := if leavesUnused op .vb then 0 else f.vb

/-- All ones when the field is fixed, zero when it is an operand. -/
def fixedBits (n : Nat) (fixed : Bool) : BitVec n := if fixed then BitVec.allOnes n else 0

/-- Masking a field gives zero exactly when a fixed field is zero. -/
theorem and_fixedBits_eq_zero {n : Nat} (b : BitVec n) (fixed : Bool) :
    b &&& fixedBits n fixed = 0 ↔ b = if fixed then 0 else b := by
  cases fixed <;> simp [fixedBits]

/-- The fields of the mask of a row: every field the opcode fixes (R65: the mask covers every bit that is not of a used
field). -/
def maskFields (op : BitVec 6) : Fields where
  op := BitVec.allOnes 6
  var := BitVec.allOnes 2
  wsel := fixedBits 2 (!isScalarOp op.toNat)
  rd := fixedBits 3 (leavesUnused op .rd)
  rs1 := fixedBits 3 (leavesUnused op .rs1)
  rs2 := fixedBits 3 (leavesUnused op .rs2)
  rs3 := fixedBits 3 (leavesUnused op .rs3)
  rs4 := fixedBits 3 (leavesUnused op .rs4)
  va := fixedBits 2 (leavesUnused op .va)
  vb := fixedBits 2 (leavesUnused op .vb)
  zero := BitVec.allOnes 3

/-- Masking a word leaves just an opcode and a variant exactly when the word has them and zeros in every field the opcode
does not use. -/
theorem packFields_and_maskFields (f : Fields) (op : BitVec 6) (var : BitVec 2) :
    packFields f &&& packFields (maskFields op) = packFields { op, var } ↔ f = f.onlyUsed op var := by
  obtain ⟨fop, fvar, wsel, rd, rs1, rs2, rs3, rs4, va, vb, zero⟩ := f
  rw [packFields_and, packFields_inj]
  simp only [maskFields, Fields.onlyUsed, Fields.mk.injEq, BitVec.and_allOnes, and_fixedBits_eq_zero]

/-! ### The rows of the opcode table (R67) -/

/-- The major opcode of a row. -/
def Row.op (r : Row) : BitVec 6 := (fieldsOf r.mtch).op

/-- The variant of a row. -/
def Row.var (r : Row) : BitVec 2 := (fieldsOf r.mtch).var

/-- The match and mask columns are those the field rules give: `match` is `op << 26 | var << 24`. -/
theorem mtch_mask_of_mem : ∀ r ∈ opcodeTable,
    r.mtch = packFields { op := r.op, var := r.var } ∧ r.mask = packFields (maskFields r.op) := by
  decide

/-- The rows differ in `op` or in `var`. -/
theorem op_var_nodup : (opcodeTable.map fun r => (r.op, r.var)).Nodup := by
  decide

/-- No two rows have one mnemonic. -/
theorem mnemonics_nodup : (opcodeTable.map Row.mnemonic).Nodup := by
  decide

/-- The opcodes and variants of the rows are those the field rules allow (R61, R68). -/
theorem exists_row_iff : ∀ (op : BitVec 6) (var : BitVec 2),
    (∃ r ∈ opcodeTable, r.op = op ∧ r.var = var) ↔
      (unusedFields op.toNat).isSome ∧ if isScalarOp op.toNat then var ≠ 3 else var = 0 := by
  decide

/-- A row's command has the row's mnemonic. -/
theorem mnemonic_build {r : Row} (hr : r ∈ opcodeTable) (f : Fields) : (r.build f).mnemonic = r.mnemonic := by
  fin_cases hr <;> rfl

/-- The encoder gives a row's command the opcode and variant of the row and the operands the opcode uses. -/
theorem instrFields_build {r : Row} (hr : r ∈ opcodeTable) (f : Fields) :
    instrFields (r.build f) = f.onlyUsed r.op r.var := by
  fin_cases hr <;>
    simp [instrFields, Fields.onlyUsed, leavesUnused, Row.op, Row.var, fieldsOf, unusedFields, isScalarOp, Fields.width,
      Fields.rdReg, Fields.rs1Reg, Fields.rs2Reg, Fields.rs3Reg, Fields.rs4Reg, Fields.vaIdx, Fields.vbIdx]

/-- A word hits a row exactly when its fields are those the row admits. -/
theorem Row.hits_iff {r : Row} (hr : r ∈ opcodeTable) (w : CmdWord) :
    r.hits w = true ↔ fieldsOf w = (fieldsOf w).onlyUsed r.op r.var := by
  obtain ⟨hmtch, hmask⟩ := mtch_mask_of_mem r hr
  rw [Row.hits, beq_iff_eq, hmtch, hmask, ← packFields_and_maskFields, packFields_fieldsOf]

/-- A word hits a row exactly when it is the encoder's word for the command the row makes of its fields. -/
theorem Row.hits_iff_encode_build {r : Row} (hr : r ∈ opcodeTable) (w : CmdWord) :
    r.hits w = true ↔ encode (r.build (fieldsOf w)) = w := by
  rw [r.hits_iff hr, ← instrFields_build hr, encode, eq_comm, ← packFields_inj, packFields_fieldsOf]

/-- A word has the opcode and the variant of a row it hits. -/
theorem Row.op_var_of_hits {r : Row} (hr : r ∈ opcodeTable) {w : CmdWord} (h : r.hits w = true) :
    (r.op, r.var) = ((fieldsOf w).op, (fieldsOf w).var) := by
  rw [(r.hits_iff hr w).mp h]
  rfl

/-- The row of a command: the table has the rows in the order of the constructors of `Instr`. -/
def rowOf (i : Instr) : Row :=
  opcodeTable[i.ctorIdx]'(by cases i <;> exact Nat.le_of_ble_eq_true rfl)

theorem rowOf_mem (i : Instr) : rowOf i ∈ opcodeTable := List.getElem_mem _

/-- The row of a command makes it of its own fields; only the width of a scalar command is not read back as it stands. -/
theorem rowOf_build (i : Instr) : (rowOf i).build (instrFields i) = i := by
  cases i with
  | rdbitC w | rdbitU w | rdbitF w | wrbitC w | wrbitU w | wrbitF w | setbitC w | setbitU w | setbitF w | clrbitC w
  | clrbitU w | clrbitF w | tglbitC w | tglbitU w | tglbitF w | rdbitsC w | rdbitsU w | rdbitsF w | wrbitsC w
  | wrbitsU w | wrbitsF w => cases w <;> rfl
  | _ => rfl

/-! ### The decoder (R73) -/

/-- A word hits one row at most. -/
theorem row_eq_of_hits {r q : Row} (hr : r ∈ opcodeTable) (hq : q ∈ opcodeTable) {w : CmdWord} (hrw : r.hits w = true)
    (hqw : q.hits w = true) : r = q :=
  List.inj_on_of_nodup_map op_var_nodup hr hq ((Row.op_var_of_hits hr hrw).trans (Row.op_var_of_hits hq hqw).symm)

/-- The row the decoder finds is a row of the table that the word hits. -/
theorem mem_hits_of_find? {w : CmdWord} {r : Row} (h : opcodeTable.find? (·.hits w) = some r) :
    r ∈ opcodeTable ∧ r.hits w = true :=
  ⟨List.mem_of_find?_eq_some h, List.find?_some (p := fun q : Row => q.hits w) h⟩

/-- A word decodes to the command of the row it hits. -/
theorem decode_of_hits {r : Row} (hr : r ∈ opcodeTable) {w : CmdWord} (h : r.hits w = true) :
    decode w = .command (r.build (fieldsOf w)) := by
  unfold decode
  cases hfind : opcodeTable.find? (·.hits w) with
  | none => exact absurd h (List.find?_eq_none.mp hfind r hr)
  | some q =>
    obtain ⟨hq, hqw⟩ := mem_hits_of_find? hfind
    rw [row_eq_of_hits hq hr hqw h]

/-- A word that decodes to a command hits a row that makes it. -/
theorem exists_row_of_decode {w : CmdWord} {i : Instr} (h : decode w = .command i) :
    ∃ r ∈ opcodeTable, r.hits w = true ∧ r.build (fieldsOf w) = i := by
  unfold decode at h
  split at h
  · next r hfind =>
    obtain ⟨hr, hrw⟩ := mem_hits_of_find? hfind
    exact ⟨r, hr, hrw, Decoded.command.inj h⟩
  · cases h

/-- A word is illegal exactly when it hits no row. -/
theorem decode_eq_illegal_iff (w : CmdWord) : decode w = .illegal ↔ ¬ ∃ r ∈ opcodeTable, r.hits w = true := by
  constructor
  · rintro h ⟨r, hr, hrw⟩
    rw [decode_of_hits hr hrw] at h
    cases h
  · intro h
    cases hw : decode w with
    | illegal => rfl
    | command i =>
      obtain ⟨r, hr, hrw, -⟩ := exists_row_of_decode hw
      exact absurd ⟨r, hr, hrw⟩ h

/-- The word of a command decodes to it. -/
theorem decode_encode (i : Instr) : decode (encode i) = .command i := by
  have hfields : fieldsOf (encode i) = instrFields i := fieldsOf_packFields _
  have hbuild : (rowOf i).build (fieldsOf (encode i)) = i := by rw [hfields, rowOf_build]
  have hhits : (rowOf i).hits (encode i) = true :=
    (Row.hits_iff_encode_build (rowOf_mem i) _).mpr (congrArg encode hbuild)
  rw [decode_of_hits (rowOf_mem i) hhits, hbuild]

/-! ### The field rules (R68) -/

theorem bitsOf_op (w : CmdWord) : bitsOf w 31 26 = (fieldsOf w).op.toNat := bitsOf_eq_extractLsb' w 31 26

theorem bitsOf_var (w : CmdWord) : bitsOf w 25 24 = (fieldsOf w).var.toNat := bitsOf_eq_extractLsb' w 25 24

theorem bitsOf_wsel (w : CmdWord) : bitsOf w 23 22 = (fieldsOf w).wsel.toNat := bitsOf_eq_extractLsb' w 23 22

theorem bitsOf_zero (w : CmdWord) : bitsOf w 2 0 = (fieldsOf w).zero.toNat := bitsOf_eq_extractLsb' w 2 0

/-- The number in an operand field. -/
def OperandField.get : OperandField → Fields → Nat
  | .rd, f => f.rd.toNat
  | .rs1, f => f.rs1.toNat
  | .rs2, f => f.rs2.toNat
  | .rs3, f => f.rs3.toNat
  | .rs4, f => f.rs4.toNat
  | .va, f => f.va.toNat
  | .vb, f => f.vb.toNat

/-- The number in an operand field of a word is the one in the field of its fields. -/
theorem OperandField.of_eq_get (x : OperandField) (w : CmdWord) : x.of w = x.get (fieldsOf w) := by
  cases x <;> exact bitsOf_eq_extractLsb' w _ _

/-- A statement about every operand field. -/
theorem OperandField.forall_iff {p : OperandField → Prop} :
    (∀ x, p x) ↔ p .rd ∧ p .rs1 ∧ p .rs2 ∧ p .rs3 ∧ p .rs4 ∧ p .va ∧ p .vb := by
  constructor
  · exact fun h => ⟨h _, h _, h _, h _, h _, h _, h _⟩
  · rintro ⟨hrd, hrs1, hrs2, hrs3, hrs4, hva, hvb⟩ x
    cases x <;> assumption

/-- A field is zero where it must be. -/
theorem eq_ite_zero_iff {n : Nat} (b : BitVec n) (c : Prop) [Decidable c] :
    (b = if c then 0 else b) ↔ (c → b.toNat = 0) := by
  by_cases hc : c <;> simp [hc, ← BitVec.toNat_inj]

/-- Fields are those their opcode uses when `wsel`, the unused fields and `zero` are as the field rules say (R62, R65). -/
theorem Fields.eq_onlyUsed_iff (f : Fields) :
    f = f.onlyUsed f.op f.var ↔
      ((!isScalarOp f.op.toNat) = true → f.wsel.toNat = 0) ∧ f.zero.toNat = 0 ∧
        ∀ x, leavesUnused f.op x = true → x.get f = 0 := by
  obtain ⟨op, var, wsel, rd, rs1, rs2, rs3, rs4, va, vb, zero⟩ := f
  have hzero : zero = 0 ↔ zero.toNat = 0 := BitVec.toNat_inj.symm
  simp only [Fields.onlyUsed, Fields.mk.injEq, OperandField.forall_iff, OperandField.get, eq_ite_zero_iff, hzero]
  tauto

/-- The third check of R68 on the fields of the word. -/
theorem unusedZero_iff (w : CmdWord) :
    unusedZero w = true ↔
      (fieldsOf w).zero.toNat = 0 ∧ ∀ x, leavesUnused (fieldsOf w).op x = true → x.get (fieldsOf w) = 0 := by
  simp [unusedZero, leavesUnused, bitsOf_op, bitsOf_zero, OperandField.of_eq_get]

/-- The second check of R68 on the fields of the word. -/
theorem variantLegal_iff (w : CmdWord) :
    variantLegal w = true ↔
      (if isScalarOp (fieldsOf w).op.toNat then (fieldsOf w).var ≠ 3 else (fieldsOf w).var = 0) ∧
        ((!isScalarOp (fieldsOf w).op.toNat) = true → (fieldsOf w).wsel.toNat = 0) := by
  rw [variantLegal, bitsOf_op, bitsOf_var, bitsOf_wsel]
  cases isScalarOp (fieldsOf w).op.toNat <;> simp [← BitVec.toNat_inj]

/-- A word hits a row exactly when a row has its opcode and variant and its fields are those the opcode uses. -/
theorem exists_row_hits_iff (w : CmdWord) :
    (∃ r ∈ opcodeTable, r.hits w = true) ↔
      (∃ r ∈ opcodeTable, r.op = (fieldsOf w).op ∧ r.var = (fieldsOf w).var) ∧
        fieldsOf w = (fieldsOf w).onlyUsed (fieldsOf w).op (fieldsOf w).var := by
  constructor
  · rintro ⟨r, hr, hrw⟩
    obtain ⟨hop, hvar⟩ := Prod.mk.inj (Row.op_var_of_hits hr hrw)
    refine ⟨⟨r, hr, hop, hvar⟩, ?_⟩
    rw [← hop, ← hvar, ← r.hits_iff hr]
    exact hrw
  · rintro ⟨⟨r, hr, hop, hvar⟩, hused⟩
    refine ⟨r, hr, ?_⟩
    rw [r.hits_iff hr, hop, hvar]
    exact hused

/-- The three checks of R68 pass exactly for the words that hit a row. -/
theorem wellFormedWord_iff (w : CmdWord) : wellFormedWord w = true ↔ ∃ r ∈ opcodeTable, r.hits w = true := by
  rw [exists_row_hits_iff, exists_row_iff, Fields.eq_onlyUsed_iff, ← unusedZero_iff, wellFormedWord, Bool.and_eq_true,
    Bool.and_eq_true, variantLegal_iff, opAssigned, bitsOf_op]
  tauto

end Sys2Proof
end

section
/-! PROOFS. The statements about the encoding (30_encoding.md). -/

namespace Sys2Proof.Machine
open Sys2Proof.Claims

/-- Settles O1: the row of the command is the one its word hits. -/
theorem decodeOfEncodeIsTheCommand : Obligations.DecodeOfEncodeIsTheCommand := by
  unfold Obligations.DecodeOfEncodeIsTheCommand
  exact decode_encode

/-- Settles O2: the row that makes the command is hit by the encoder's word alone. -/
theorem decodedWordIsTheEncodedWord : Obligations.DecodedWordIsTheEncodedWord := by
  unfold Obligations.DecodedWordIsTheEncodedWord
  intro w i h
  obtain ⟨r, hr, hhits, hbuild⟩ := exists_row_of_decode h
  rw [← hbuild]
  exact (r.hits_iff_encode_build hr w).mp hhits

/-- Settles O3: the decoder finds the row that is hit, and a mnemonic names one row. -/
theorem wordIsCommandOfARowExactlyWhenItMatches : Obligations.WordIsCommandOfARowExactlyWhenItMatches := by
  unfold Obligations.WordIsCommandOfARowExactlyWhenItMatches
  intro w r hr
  constructor
  · rintro ⟨i, hdecode, hmnemonic⟩
    obtain ⟨q, hq, hhits, rfl⟩ := exists_row_of_decode hdecode
    have hqr : q = r := List.inj_on_of_nodup_map mnemonics_nodup hq hr ((mnemonic_build hq _).symm.trans hmnemonic)
    exact beq_iff_eq.mp (hqr ▸ hhits)
  · intro hmatch
    exact ⟨_, decode_of_hits hr (beq_iff_eq.mpr hmatch), mnemonic_build hr _⟩

/-- Settles O4: both rows have the opcode and the variant of the word. -/
theorem noWordMatchesTwoRows : Obligations.NoWordMatchesTwoRows := by
  unfold Obligations.NoWordMatchesTwoRows
  intro w j k r q hj hk hr hq
  have hrq : r = q :=
    row_eq_of_hits (List.mem_of_getElem? hj) (List.mem_of_getElem? hk) (beq_iff_eq.mpr hr) (beq_iff_eq.mpr hq)
  have hlt : j < opcodeTable.length := (List.getElem?_eq_some_iff.mp hj).1
  exact (List.getElem?_inj hlt op_var_nodup.of_map).mp (by rw [hj, hk, hrq])

/-- Settles O5: the field rules and the match and mask columns admit the same words. -/
theorem illegalWordsRaiseIllegalCommand : Obligations.IllegalWordsRaiseIllegalCommand := by
  unfold Obligations.IllegalWordsRaiseIllegalCommand
  intro w
  have hillegal : decode w = .illegal ↔ wellFormedWord w = false := by
    rw [decode_eq_illegal_iff, ← wellFormedWord_iff, Bool.not_eq_true]
  exact ⟨hillegal, fun hw s => ⟨_, runCommand_illegal (hillegal.mpr hw) s, s.raise_raises .illegalCommand⟩⟩

/-- Settles O6: each word is the encoder's word for its command. -/
theorem sampleWordsDecode : Obligations.SampleWordsDecode := by
  unfold Obligations.SampleWordsDecode
  exact ⟨decode_encode (.rdbitsC .w16 1 0 2 3), decode_encode (.wrbitsF .w16 4 0 1 2 3), decode_encode (.bwrbits 0 1 2),
    decode_encode (.vnewsl 1 3 4 5 6), decode_encode (.veq 7 2 3), decode_encode (.chk3 3 3)⟩

end Sys2Proof.Machine
end

section
/-! PROOFS. The laws of the bit and field primitives and of the fast index wrap (40_datapath_functions.md R83, R93,
R94). -/

namespace Sys2Proof

/-- Every scalar width is a power of two. -/
theorem Width.bits_eq_two_pow (w : Width) : ∃ k, w.bits = 2 ^ k := by
  cases w
  · exact ⟨3, rfl⟩
  · exact ⟨4, rfl⟩
  · exact ⟨5, rfl⟩
  · exact ⟨6, rfl⟩

end Sys2Proof

namespace Sys2Proof.Machine

/-! ### Laws of the single-bit primitives (R94) -/

section
variable {W v i : Nat} (hv : v < 2 ^ W) (hi : i < W)
include hv hi

/-- The bit read, written back, gives the value. -/
theorem writeBit_readBit : writeBit W v i (readBit W v i) = v := by
  apply Nat.eq_of_testBit_eq
  intro j
  rw [testBit_writeBit hv hi, readBit_eq_testBit]
  split
  · next hj => subst hj; cases v.testBit j <;> rfl
  · rfl

/-- A bit cleared reads 0. -/
theorem readBit_clearBit : readBit W (clearBit W v i) i = 0 := by
  simp [readBit_eq_testBit, testBit_clearBit hv hi]

end

/-- A bit set reads 1. -/
theorem readBit_setBit (W v i : Nat) : readBit W (setBit W v i) i = 1 := by
  simp [readBit_eq_testBit, testBit_setBit]

/-- A bit toggled twice is as before. -/
theorem toggleBit_toggleBit (W v i : Nat) : toggleBit W (toggleBit W v i) i = v :=
  Nat.xor_xor_cancel_right v (bitmask i)

/-! ### Laws of the field primitives (R93, R94) -/

/-- A field written reads back as the bits cut to its count. -/
theorem readBits_writeBits {W v i c : Nat} (hv : v < 2 ^ W) (hc : i + c ≤ W) (b : Nat) :
    readBits W (writeBits W v i c b) i c = b &&& fieldmask c := by
  apply Nat.eq_of_testBit_eq
  intro j
  rw [testBit_readBits, testBit_writeBits hv hc, Nat.testBit_and, testBit_fieldmask, Bool.and_comm]
  by_cases hj : j < c
  · rw [if_pos (by omega), Nat.add_sub_cancel_left]
  · simp [hj]

/-- A field of no bits reads 0. -/
theorem readBits_count_zero (W v i : Nat) : readBits W v i 0 = 0 := Nat.and_zero _

/-- A field of no bits writes nothing. -/
theorem writeBits_count_zero {W v i : Nat} (hv : v < 2 ^ W) (hi : i < W) (b : Nat) : writeBits W v i 0 b = v := by
  apply Nat.eq_of_testBit_eq
  intro j
  rw [testBit_writeBits hv hi.le, if_neg (by omega)]

/-- The field of all `W` bits reads the whole scalar. -/
theorem readBits_whole {W v : Nat} (hv : v < 2 ^ W) : readBits W v 0 W = v :=
  Nat.and_two_pow_sub_one_of_lt_two_pow hv

/-- The field of all `W` bits replaces the whole scalar. -/
theorem writeBits_whole {W v : Nat} (hv : v < 2 ^ W) (b : Nat) : writeBits W v 0 W b = b % 2 ^ W := by
  apply Nat.eq_of_testBit_eq
  intro j
  rw [testBit_writeBits hv (Nat.zero_add W).le, Nat.testBit_mod_two_pow]
  by_cases hj : j < W
  · simp [hj]
  · simp [hj, testBit_above hv (Nat.le_of_not_lt hj)]

/-- A valid field starts and ends in the scalar (R92). -/
theorem validField_iff (W i c : Nat) : validField W i c = true ↔ i < W ∧ i + c ≤ W := by
  simp only [validField, Bool.and_eq_true, decide_eq_true_eq]
  omega

/-! ### No intermediate value overflows (R94) -/

/-- A value shifted up stays a `W`-bit value when its own bits fit above the shift. -/
theorem shiftLeft_lt_of_fits {a c i W : Nat} (ha : a < 2 ^ c) (h : i + c ≤ W) : a <<< i < 2 ^ W :=
  (Nat.shiftLeft_lt ha).trans_le (Nat.pow_le_pow_right (by decide) (by omega))

/-- A normalised state has one bit (R84). -/
theorem norm_lt (s : Nat) : norm s < 2 ^ 1 := by
  unfold norm
  split <;> decide

/-- Bits cut to a count are a value of that many bits (R82). -/
theorem and_fieldmask_lt (b c : Nat) : b &&& fieldmask c < 2 ^ c :=
  Nat.and_lt_two_pow b (Nat.sub_lt (Nat.two_pow_pos c) Nat.one_pos)

/-- Clearing bits of a `W`-bit value, by any mask, gives a `W`-bit value. -/
theorem and_lt_of_lt {W v : Nat} (hv : v < 2 ^ W) (m : Nat) : v &&& m < 2 ^ W := Nat.and_le_left.trans_lt hv

/-- Reading a field gives a `W`-bit value. -/
theorem readBits_lt {W v : Nat} (hv : v < 2 ^ W) (i c : Nat) : readBits W v i c < 2 ^ W :=
  and_lt_of_lt ((Nat.shiftRight_le v i).trans_lt hv) _

/-- Writing a bit gives a `W`-bit value. -/
theorem writeBit_lt {W v i : Nat} (hv : v < 2 ^ W) (hi : i < W) (s : Nat) : writeBit W v i s < 2 ^ W :=
  Nat.or_lt_two_pow (and_lt_of_lt hv _) (shiftLeft_lt_of_fits (norm_lt s) hi)

/-- Writing a field gives a `W`-bit value. -/
theorem writeBits_lt {W v i c : Nat} (hv : v < 2 ^ W) (hc : i + c ≤ W) (b : Nat) : writeBits W v i c b < 2 ^ W :=
  Nat.or_lt_two_pow (and_lt_of_lt hv _) (shiftLeft_lt_of_fits (and_fieldmask_lt b c) hc)

/-! ### The fast index wrap (R83) -/

/-- Masking by a width less one is the remainder by the width. -/
theorem fastidx_eq_mod (w : Width) (index : Nat) : fastidx w.bits index = index % w.bits := by
  obtain ⟨k, hk⟩ := w.bits_eq_two_pow
  rw [fastidx, hk, Nat.and_two_pow_sub_one_eq_mod]

end Sys2Proof.Machine
end

section
/-! PROOFS. What a fill plan covers (40_datapath_functions.md R98) and where the bits of a view lie (R95). -/

namespace Sys2Proof.Machine

/-! ### The offsets and the masks of a fill plan (R98) -/

/-- The head mask is a byte. -/
theorem headmask_lt (s : Nat) : headmask s < 2 ^ 8 := Nat.mod_lt _ (by decide)

/-- The tail mask is a byte. -/
theorem tailmask_lt {e : Nat} (he : e < 8) : tailmask e < 2 ^ 8 := by
  unfold tailmask
  split
  · decide
  · exact (Nat.sub_le _ 1).trans_lt (Nat.pow_lt_pow_right (by decide) he)

/-- The plan of a view that lies in one byte. -/
theorem fillplan_one_byte {start length : Nat} (hl : length ≠ 0) (hlast : (start + length - 1) / 8 = 0) :
    fillplan start length = [(0, headmask start &&& tailmask ((start + length) % 8))] := by
  have hrest : (start + length) &&& 7 = (start + length) % 8 := Nat.and_two_pow_sub_one_eq_mod _ 3
  simp only [fillplan, if_neg hl, hrest, Nat.shiftRight_eq_div_pow, Nat.reducePow, hlast, if_true]

/-- The plan of a view that reaches past its first byte: a partial head, the whole bytes, a partial tail. -/
theorem fillplan_bytes {start length : Nat} (hl : length ≠ 0) (hlast : (start + length - 1) / 8 ≠ 0) :
    fillplan start length =
      (if start ≠ 0 then [(0, headmask start)] else []) ++
        fullBytes (if start ≠ 0 then 1 else 0)
          (if (start + length) % 8 = 0 then (start + length - 1) / 8 else (start + length - 1) / 8 - 1) ++
        (if (start + length) % 8 ≠ 0 then [((start + length - 1) / 8, tailmask ((start + length) % 8))] else []) := by
  have hrest : (start + length) &&& 7 = (start + length) % 8 := Nat.and_two_pow_sub_one_eq_mod _ 3
  simp only [fillplan, if_neg hl, hrest, Nat.shiftRight_eq_div_pow, Nat.reducePow, if_neg hlast]

/-- The offset of a part of a plan that may be left out, as an interval. -/
theorem map_fst_optional (c : Prop) [Decidable c] (k m : Nat) :
    (if c then [(k, m)] else []).map Prod.fst = List.range' k (if c then 1 else 0) := by
  split <;> rfl

/-- The offsets of the whole-byte part of a plan. -/
theorem map_fst_fullBytes (first last : Nat) :
    (fullBytes first last).map Prod.fst = List.range' first (last + 1 - first) := by
  simp [fullBytes, Function.comp_def]

/-- The numbers below `n`, cut at `a` and at `b`. -/
theorem range_eq_append_range' {a b n : Nat} (hab : a ≤ b) (hbn : b ≤ n) :
    List.range n = List.range' 0 a ++ List.range' a (b - a) ++ List.range' b (n - b) := by
  have hlow := List.range'_append_1 (s := 0) (m := a) (n := b - a)
  have hall := List.range'_append_1 (s := 0) (m := b) (n := n - b)
  rw [Nat.zero_add, Nat.add_sub_cancel' hab] at hlow
  rw [Nat.zero_add, Nat.add_sub_cancel' hbn] at hall
  rw [hlow, hall, List.range_eq_range']

/-- The offsets of the plan of a view that is not empty are those of the bytes it touches, in order. -/
theorem map_fst_fillplan {start length : Nat} (hl : length ≠ 0) :
    (fillplan start length).map Prod.fst = List.range ((start + length - 1) / 8 + 1) := by
  by_cases hlast : (start + length - 1) / 8 = 0
  · rw [fillplan_one_byte hl hlast, hlast]
    rfl
  · rw [fillplan_bytes hl hlast, List.map_append, List.map_append, map_fst_optional, map_fst_fullBytes,
      map_fst_optional]
    have hfirst : (if start ≠ 0 then 1 else 0) ≤ 1 := by split <;> decide
    generalize (if start ≠ 0 then 1 else 0) = first at hfirst ⊢
    generalize (start + length - 1) / 8 = last at hlast ⊢
    by_cases he : (start + length) % 8 = 0
    · rw [if_pos he, if_neg (not_not_intro he),
        range_eq_append_range' (show first ≤ last + 1 by omega) le_rfl, Nat.sub_self]
      rfl
    · rw [if_neg he, if_pos he, range_eq_append_range' (show first ≤ last by omega) (last.le_add_right 1),
        Nat.add_sub_cancel_left, Nat.sub_add_cancel (Nat.pos_of_ne_zero hlast)]

/-- Every entry of the whole-byte part of a plan has the whole mask. -/
theorem snd_of_mem_fullBytes {first last : Nat} {e : Nat × Nat} (h : e ∈ fullBytes first last) : e.2 = 0xFF := by
  obtain ⟨k, -, rfl⟩ := List.mem_map.mp h
  rfl

/-- The head mask at the first byte, the whole mask after it. -/
def headPart (start k : Nat) : Nat := if k = 0 then headmask start else 0xFF

/-- The tail mask at the last byte, the whole mask before it. -/
def tailPart (fin k : Nat) : Nat := if k = (fin - 1) / 8 then tailmask (fin % 8) else 0xFF

/-- The head part keeps the whole byte after the first byte, and in it when the view starts at a byte boundary. -/
theorem headPart_eq_whole {start k : Nat} (h : k = 0 → start = 0) : headPart start k = 0xFF :=
  ite_eq_right_iff.mpr fun hk => by rw [h hk]; rfl

/-- The tail part keeps the whole byte before the last byte, and in it when the view ends at a byte boundary. -/
theorem tailPart_eq_whole {fin k : Nat} (h : k = (fin - 1) / 8 → fin % 8 = 0) : tailPart fin k = 0xFF :=
  ite_eq_right_iff.mpr fun hk => by rw [h hk]; rfl

/-- The head part of a mask is a byte. -/
theorem headPart_lt (start k : Nat) : headPart start k < 2 ^ 8 := by
  unfold headPart
  split
  · exact headmask_lt start
  · decide

/-- The mask of an entry keeps what the head part and the tail part of its byte both keep. -/
theorem snd_of_mem_fillplan {start length : Nat} (hl : length ≠ 0) {e : Nat × Nat} (h : e ∈ fillplan start length) :
    e.2 = headPart start e.1 &&& tailPart (start + length) e.1 := by
  by_cases hlast : (start + length - 1) / 8 = 0
  · rw [fillplan_one_byte hl hlast, List.mem_singleton] at h
    rw [h, headPart, tailPart, if_pos rfl, if_pos hlast.symm]
  · rw [fillplan_bytes hl hlast, List.mem_append, List.mem_append, List.mem_ite_nil_right, List.mem_ite_nil_right,
      List.mem_singleton, List.mem_singleton] at h
    rcases h with (⟨-, rfl⟩ | hfull) | ⟨-, rfl⟩
    · rw [tailPart_eq_whole fun hend => absurd hend.symm hlast, headPart, if_pos rfl]
      exact (Nat.and_two_pow_sub_one_of_lt_two_pow (headmask_lt start)).symm
    · have hfirst := le_fst_of_mem_fullBytes hfull
      have hend := fst_le_of_mem_fullBytes hfull
      rw [snd_of_mem_fullBytes hfull, headPart_eq_whole fun h0 => by split at hfirst <;> omega,
        tailPart_eq_whole fun h0 => by split at hend <;> omega]
      rfl
    · rw [headPart_eq_whole fun h0 => absurd h0 hlast, tailPart, if_pos rfl, Nat.and_comm]
      exact (Nat.and_two_pow_sub_one_of_lt_two_pow (tailmask_lt (Nat.mod_lt _ (by decide)))).symm

/-- The bits of a byte at or above the start of the view. -/
theorem testBit_headPart {start : Nat} (hs : start ≤ 7) (k : Nat) {j : Nat} (hj : j < 8) :
    (headPart start k).testBit j = decide (start ≤ 8 * k + j) := by
  unfold headPart
  split
  · next hk => rw [testBit_headmask _ hj, hk, Nat.mul_zero, Nat.zero_add]
  · next hk =>
    rw [show (0xFF : Nat) = headmask 0 from rfl, testBit_headmask _ hj, decide_eq_decide]
    omega

/-- The bits of a byte, no later than the last, below the end of the view. -/
theorem testBit_tailPart {fin k : Nat} (hk : k ≤ (fin - 1) / 8) (hfin : fin ≠ 0) {j : Nat} (hj : j < 8) :
    (tailPart fin k).testBit j = decide (8 * k + j < fin) := by
  unfold tailPart
  split
  · rw [testBit_tailmask _ hj, decide_eq_decide]
    omega
  · rw [show (0xFF : Nat) = tailmask 0 from rfl, testBit_tailmask _ hj, decide_eq_decide]
    omega

/-! ### The byte of a view's bit (R95) -/

/-- A bit of a view inside `MEM` lies in a byte of the view's slice. -/
theorem ViewDesc.ok.byte_lt_slice {d : ViewDesc} {n i : Nat} (h : d.ok n) (hi : i < d.length.toNat) :
    (split (viewflat d i)).1 < d.base.toNat + d.nbytes.toNat := by
  obtain ⟨hwindow, -⟩ := h
  rw [split_eq, viewflat]
  omega

end Sys2Proof.Machine
end

section
/-! PROOFS. The statements about the datapath functions (40_datapath_functions.md). -/

namespace Sys2Proof.Machine

/-- Settles O47: the offsets part by part, the masks as what a head part and a tail part both keep. -/
theorem fillPlanCoversExactlyTheView : Obligations.FillPlanCoversExactlyTheView := by
  unfold Obligations.FillPlanCoversExactlyTheView
  intro start length hs
  by_cases hl : length = 0
  · simp [hl, fillplan]
  · refine ⟨by rw [if_neg hl, map_fst_fillplan hl], fun e he => ?_⟩
    have hle := fst_le_of_mem_fillplan he
    rw [Nat.shiftRight_eq_div_pow] at hle
    rw [snd_of_mem_fillplan hl he]
    refine ⟨and_lt_of_lt (headPart_lt start e.1) _, fun j hj => ?_⟩
    rw [Nat.testBit_and, testBit_headPart hs _ hj, testBit_tailPart hle (by omega) hj, ← Bool.decide_and]

/-- Settles O51: the slice bounds the byte, `MEM` bounds the slice. -/
theorem viewBitsLieInTheSlice : Obligations.ViewBitsLieInTheSlice := by
  unfold Obligations.ViewBitsLieInTheSlice
  intro d memBytes i hd hi
  exact ⟨rfl, hd.byte_lt_slice hi, hd.byte_lt hi, d.spans_viewflat hi⟩

/-- Settles O55: the laws one by one; they hold for bits of any size. -/
theorem bitAndFieldLaws : Obligations.BitAndFieldLaws := by
  unfold Obligations.BitAndFieldLaws
  intro w v i count bits hv hi hcount _
  have hfield : i + count ≤ w.bits := by omega
  refine ⟨writeBit_readBit hv hi, readBit_setBit .., readBit_clearBit hv hi, toggleBit_toggleBit ..,
    readBits_writeBits hv hfield bits, fun j hj => ?_, ?_⟩
  · rw [testBit_writeBits hv hfield, if_neg hj]
  · have hmask : bitmask i < 2 ^ w.bits := bitmask_lt hi
    simp only [List.forall_mem_cons]
    exact ⟨writeBit_lt hv hi bits, Nat.or_lt_two_pow hv hmask, and_lt_of_lt hv _, Nat.xor_lt_two_pow hv hmask,
      readBits_lt hv i count, writeBits_lt hv hfield bits, hmask, shiftLeft_lt_of_fits (norm_lt bits) hi,
      fieldmask_shiftLeft_lt hfield, shiftLeft_lt_of_fits (and_fieldmask_lt bits count) hfield,
      fun _ h => (List.not_mem_nil h).elim⟩

/-- Settles O56: the fields of no bits and of all bits, and what the validity check asks for. -/
theorem fieldEdgeCases : Obligations.FieldEdgeCases := by
  unfold Obligations.FieldEdgeCases
  intro w v b hv
  exact ⟨fun i hi => ⟨readBits_count_zero .., writeBits_count_zero hv hi b⟩, readBits_whole hv, writeBits_whole hv b,
    validField_iff w.bits⟩

/-- Settles O53: quotient and remainder by 8. -/
theorem splitIsByteAndBit : Obligations.SplitIsByteAndBit := by
  unfold Obligations.SplitIsByteAndBit
  intro f
  rw [split_eq]
  exact ⟨(Nat.div_add_mod f 8).symm, Nat.le_of_lt_succ (Nat.mod_lt f (by decide))⟩

/-- Settles O54: the width is a power of two. -/
theorem fastIndexIsModuloWidth : Obligations.FastIndexIsModuloWidth := by
  unfold Obligations.FastIndexIsModuloWidth
  intro w index
  rw [fastidx_eq_mod]
  refine ⟨rfl, Nat.mod_lt _ ?_⟩
  obtain ⟨k, hk⟩ := w.bits_eq_two_pow
  rw [hk]
  exact Nat.two_pow_pos k

end Sys2Proof.Machine
end

section
/-! PROOFS. The word of a command (30_encoding.md R60, R67), as the statements about single commands give it. -/

namespace Sys2Proof.Claims
open Sys2Proof.Machine

/-- The fields of the word that these numbers describe (30_encoding.md R60). -/
def WordFields.toFields (f : WordFields) : Fields where
  op := BitVec.ofNat 6 f.op
  var := BitVec.ofNat 2 f.var
  wsel := f.width.elim 0 wselOf
  rd := regField f.rd
  rs1 := regField f.rs1
  rs2 := regField f.rs2
  rs3 := regField f.rs3
  rs4 := regField f.rs4
  va := viewField f.va
  vb := viewField f.vb

/-- `wsel` selects the width it is the field of: `W = 8 << wsel` (R62). -/
theorem shiftLeft_wselOf (w : Width) : 8 <<< (wselOf w).toNat = w.bits := by
  cases w <;> rfl

/-- A command whose fields are those described is encoded as described. -/
theorem encodedAs_of_instrFields {i : Instr} {f : WordFields} (hop : f.op < 2 ^ 6) (hvar : f.var < 2 ^ 2)
    (h : instrFields i = f.toFields) : EncodedAs i f := by
  have hword : fieldsOf (encode i) = f.toFields := by rw [encode, h, fieldsOf_packFields]
  have hoperand (x : OperandField) : x.of (encode i) = x.get f.toFields := by rw [x.of_eq_get, hword]
  refine ⟨?_, ?_, ?_, hoperand .rd, hoperand .rs1, hoperand .rs2, hoperand .rs3, hoperand .rs4, hoperand .va,
    hoperand .vb, ?_⟩
  · rw [bitsOf_op, hword]
    exact Nat.mod_eq_of_lt hop
  · rw [bitsOf_var, hword]
    exact Nat.mod_eq_of_lt hvar
  · rw [bitsOf_wsel, hword]
    obtain ⟨op, var, width⟩ := f
    cases width with
    | none => rfl
    | some w => exact shiftLeft_wselOf w
  · rw [bitsOf_zero, hword]
    rfl

/-- The three postures of a scalar command differ in `var` alone (R61). -/
theorem encodedAs_postures {f : WordFields} {checked unchecked fast : Instr} (hop : f.op < 2 ^ 6)
    (hc : instrFields checked = WordFields.toFields { f with var := 0 })
    (hu : instrFields unchecked = WordFields.toFields { f with var := 1 })
    (hf : instrFields fast = WordFields.toFields { f with var := 2 }) :
    EncodedAs checked { f with var := 0 } ∧ EncodedAs unchecked { f with var := 1 } ∧
      EncodedAs fast { f with var := 2 } :=
  ⟨encodedAs_of_instrFields hop (by simp) hc, encodedAs_of_instrFields hop (by simp) hu,
    encodedAs_of_instrFields hop (by simp) hf⟩

end Sys2Proof.Claims
end

section
/-! PROOFS. The three postures of a scalar command (41_scalar_bit_ops.md R100), and the operands and the result of one bit
by bit (10_state.md R33). -/

namespace Sys2Proof

/-- No scalar is wider than a register. -/
theorem Width.bits_le (w : Width) : w.bits ≤ 64 := by
  cases w <;> decide

theorem Width.bits_pos (w : Width) : 0 < w.bits := by
  cases w <;> decide

end Sys2Proof

namespace Sys2Proof.Machine
open Sys2Proof.Claims

/-! ### Operands and results (10_state.md R33) -/

theorem State.scalar_lt (s : State) (w : Width) (r : Reg) : s.scalar w r < 2 ^ w.bits :=
  Nat.mod_lt _ (Nat.two_pow_pos _)

/-- Bits of a register read as an operand. -/
theorem State.testBit_operand (s : State) (r : Reg) (j : Nat) : (s.operand r).testBit j = s.x[r].getLsbD j :=
  BitVec.testBit_toNat _

/-- Bits of a register read as a scalar. -/
theorem State.testBit_scalar (s : State) (w : Width) (r : Reg) (j : Nat) :
    (s.scalar w r).testBit j = lowBit w s.x[r] j := by
  rw [State.scalar, testBit_trunc, testBit_operand, lowBit]

/-- An operand is 0 exactly when its register holds 0. -/
theorem State.operand_eq_zero_iff (s : State) (r : Reg) : s.operand r = 0 ↔ s.x[r] = 0 :=
  BitVec.toNat_eq (y := 0) |>.symm

/-- The index of a fast command is the register modulo the width (R83). -/
theorem State.fastIndex_eq_mod (s : State) (w : Width) (r : Reg) : s.fastIndex w r = s.x[r].toNat % w.bits :=
  fastidx_eq_mod w _

theorem lowBit_of_lt {w : Width} {j : Nat} (hj : j < w.bits) (v : Xword) : lowBit w v j = v.getLsbD j := by
  simp [lowBit, hj]

/-- Bits of a `W`-bit result, zero-extended into the destination register. -/
theorem State.finish_getLsbD (s : State) (rd : Reg) {w : Width} {n : Nat} (hn : n < 2 ^ w.bits) (j : Nat) :
    ((s.finish rd n).x[rd]).getLsbD j = n.testBit j := by
  rw [finish_get, BitVec.getLsbD_ofNat]
  by_cases hj : j < 64
  · simp [hj]
  · have hw := w.bits_le
    simp [hj, testBit_above hn (show w.bits ≤ j by omega)]

/-! ### The ends of a scalar command (R100) -/

/-- A free value in `x[rd]` and nothing else is what the statements call `RegisterOnly`. -/
theorem State.finishAny_registerOnly (s : State) (rd : Reg) : RegisterOnly s (s.finishAny rd) rd [] where
  otherRegisters r hr := by
    show (s.setX rd _).x[r] = _
    rw [State.setX_get, if_neg hr.symm]
  views := rfl
  memory _ := rfl
  status := rfl
  response := rfl
  accesses := rfl
  others := ⟨rfl, rfl, rfl⟩

section
variable {i : Instr} {s : State} {rd : Reg}

theorem completes_finish {n : Nat} {P : State → Prop} (h : exec i s = .next (s.finish rd n)) (hP : P (s.finish rd n)) :
    Completes i s fun t => RegisterOnly s t rd [] ∧ P t :=
  ⟨_, h, s.finish_registerOnly rd n, hP⟩

theorem completes_finishAny (h : exec i s = .next (s.finishAny rd)) : Completes i s fun t => RegisterOnly s t rd [] :=
  ⟨_, h, s.finishAny_registerOnly rd⟩

theorem completes_raise_outOfRange (h : exec i s = .next (s.raise .outOfRange)) : Completes i s fun t => Raises s t 1 :=
  ⟨_, h, s.raise_raises .outOfRange⟩

end

/-! ### The three postures of one command (R100) -/

section
variable {f : WordFields} {checked unchecked fast : Instr} {w : Width} {rd rs2 rs3 : Reg} {s : State}
  {result : Nat → State → Prop}

section
variable {valid : Bool} {n : Nat}
  (hc : exec checked s = if valid then .next (s.finish rd n) else .next (s.raise .outOfRange))
  (hu : exec unchecked s = if valid then .next (s.finish rd n) else .next (s.finishAny rd))
include hc hu

/-- Where the check holds, the checked and the unchecked form both give the result. -/
theorem completes_of_valid (hv : valid = true) {P : State → Prop} (hP : P (s.finish rd n)) :
    Completes checked s (fun t => RegisterOnly s t rd [] ∧ P t) ∧
      Completes unchecked s (fun t => RegisterOnly s t rd [] ∧ P t) :=
  ⟨completes_finish (hc.trans (if_pos hv)) hP, completes_finish (hu.trans (if_pos hv)) hP⟩

/-- Where the check fails, the checked form raises `OutOfRange` and the unchecked form leaves a free value. -/
theorem completes_of_not_valid (hv : ¬ valid = true) :
    Completes checked s (fun t => Raises s t 1) ∧ Completes unchecked s (fun t => RegisterOnly s t rd []) :=
  ⟨completes_raise_outOfRange (hc.trans (if_neg hv)), completes_finishAny (hu.trans (if_neg hv))⟩

end

variable (n : Nat → Nat)
  (hword : EncodedAs checked { f with var := 0 } ∧ EncodedAs unchecked { f with var := 1 } ∧
    EncodedAs fast { f with var := 2 })
include hword

/-- A single-bit command is its datapath function `n` of the index: at the index itself after the check of the checked and
the unchecked form, at the wrapped index, which is always valid, in the fast form. -/
theorem bitCommand_of_exec
    (hc : exec checked s = if validIndex w.bits (s.operand rs2) then .next (s.finish rd (n (s.operand rs2)))
      else .next (s.raise .outOfRange))
    (hu : exec unchecked s = if validIndex w.bits (s.operand rs2) then .next (s.finish rd (n (s.operand rs2)))
      else .next (s.finishAny rd))
    (hf : exec fast s = .next (s.finish rd (n (s.fastIndex w rs2))))
    (hresult : ∀ i < w.bits, result i (s.finish rd (n i))) :
    BitCommand f checked unchecked fast w rd rs2 s result := by
  rw [State.fastIndex_eq_mod] at hf
  exact ⟨hword, fun hi => completes_of_valid hc hu (decide_eq_true hi) (hresult _ hi),
    fun hi => completes_of_not_valid hc hu fun h => Nat.not_lt.mpr hi (of_decide_eq_true h),
    completes_finish hf (hresult _ (Nat.mod_lt _ w.bits_pos))⟩

/-- A field command is its datapath function `n` of the index: at the index itself after the check of the checked and the
unchecked form, at the wrapped index in the fast form, where the count must still fit. -/
theorem fieldCommand_of_exec
    (hc : exec checked s = if validField w.bits (s.operand rs2) (s.operand rs3) then
      .next (s.finish rd (n (s.operand rs2))) else .next (s.raise .outOfRange))
    (hu : exec unchecked s = if validField w.bits (s.operand rs2) (s.operand rs3) then
      .next (s.finish rd (n (s.operand rs2))) else .next (s.finishAny rd))
    (hf : exec fast s = if s.operand rs3 ≤ w.bits - s.fastIndex w rs2 then
      .next (s.finish rd (n (s.fastIndex w rs2))) else .next (s.finishAny rd))
    (hresult : ∀ i, i + s.operand rs3 ≤ w.bits → result i (s.finish rd (n i))) :
    FieldCommand f checked unchecked fast w rd rs2 rs3 s result := by
  rw [State.fastIndex_eq_mod] at hf
  have hwrap : s.x[rs2].toNat % w.bits < w.bits := Nat.mod_lt _ w.bits_pos
  have hiff := validField_iff w.bits (s.operand rs2) (s.operand rs3)
  unfold State.operand at hc hu hf hiff hresult
  refine ⟨hword, fun hi => ?_, fun hi => ?_, fun hfits => ?_, fun hover => ?_⟩
  · have hfits : s.x[rs2].toNat + s.x[rs3].toNat ≤ w.bits := by omega
    exact completes_of_valid hc hu (hiff.mpr ⟨hi.1, hfits⟩) (hresult _ hfits)
  · exact completes_of_not_valid hc hu (mt hiff.mp (by omega))
  · exact completes_finish (hf.trans (if_pos hfits)) (hresult _ (by omega))
  · exact completes_finishAny (hf.trans (if_neg (Nat.not_le.mpr hover)))

end

end Sys2Proof.Machine
end

section
/-! PROOFS. The statements about the Scalar Bit Ops commands (41_scalar_bit_ops.md). -/

namespace Sys2Proof.Machine
open Sys2Proof.Claims

/-- Settles O26: `read_bit` is the bit as 0 or 1, and the index lies below the width. -/
theorem rdbitReadsOneBit : Obligations.RdbitReadsOneBit := by
  unfold Obligations.RdbitReadsOneBit
  intro w rd rs1 rs2 s
  refine bitCommand_of_exec (readBit w.bits (s.scalar w rs1)) (encodedAs_postures (by simp) rfl rfl rfl) rfl rfl rfl
    fun i hi => ?_
  rw [State.finish_get, readBit_eq_testBit, State.testBit_scalar, lowBit_of_lt hi]
  split <;> rfl

/-- Settles O27, from the bits of `write_bit`. -/
theorem wrbitWritesOneBit : Obligations.WrbitWritesOneBit := by
  unfold Obligations.WrbitWritesOneBit
  intro w rd rs1 rs2 rs3 s
  refine bitCommand_of_exec (writeBit w.bits (s.scalar w rs1) · (s.operand rs3))
    (encodedAs_postures (by simp) rfl rfl rfl) rfl rfl rfl fun i hi j => ?_
  have hv := s.scalar_lt w rs1
  rw [State.finish_getLsbD s rd (writeBit_lt hv hi _), testBit_writeBit hv hi, State.testBit_scalar]
  simp only [ne_eq, State.operand_eq_zero_iff]

/-- Settles O28, from the bits of `set_bit`. -/
theorem setbitSetsOneBit : Obligations.SetbitSetsOneBit := by
  unfold Obligations.SetbitSetsOneBit
  intro w rd rs1 rs2 s
  refine bitCommand_of_exec (setBit w.bits (s.scalar w rs1)) (encodedAs_postures (by simp) rfl rfl rfl) rfl rfl rfl
    fun i hi j => ?_
  have hlt : setBit w.bits (s.scalar w rs1) i < 2 ^ w.bits := Nat.or_lt_two_pow (s.scalar_lt w rs1) (bitmask_lt hi)
  rw [State.finish_getLsbD s rd hlt, testBit_setBit, State.testBit_scalar]

/-- Settles O29, from the bits of `clear_bit`. -/
theorem clrbitClearsOneBit : Obligations.ClrbitClearsOneBit := by
  unfold Obligations.ClrbitClearsOneBit
  intro w rd rs1 rs2 s
  refine bitCommand_of_exec (clearBit w.bits (s.scalar w rs1)) (encodedAs_postures (by simp) rfl rfl rfl) rfl rfl rfl
    fun i hi j => ?_
  have hv := s.scalar_lt w rs1
  have hlt : clearBit w.bits (s.scalar w rs1) i < 2 ^ w.bits := and_lt_of_lt hv _
  rw [State.finish_getLsbD s rd hlt, testBit_clearBit hv hi, State.testBit_scalar]

/-- Settles O30, from the bits of `toggle_bit`; the bit toggled lies below the width. -/
theorem tglbitTogglesOneBit : Obligations.TglbitTogglesOneBit := by
  unfold Obligations.TglbitTogglesOneBit
  intro w rd rs1 rs2 s
  refine bitCommand_of_exec (toggleBit w.bits (s.scalar w rs1)) (encodedAs_postures (by simp) rfl rfl rfl) rfl rfl rfl
    fun i hi j => ?_
  have hlt : toggleBit w.bits (s.scalar w rs1) i < 2 ^ w.bits :=
    Nat.xor_lt_two_pow (s.scalar_lt w rs1) (bitmask_lt hi)
  rw [State.finish_getLsbD s rd hlt, testBit_toggleBit, State.testBit_scalar]
  split
  · next hj => rw [hj, lowBit_of_lt hi]
  · rfl

/-- Settles O31, from the bits of `read_bits`; the field lies below the width, so no bit of it is cut. -/
theorem rdbitsReadsTheField : Obligations.RdbitsReadsTheField := by
  unfold Obligations.RdbitsReadsTheField
  intro w rd rs1 rs2 rs3 s
  refine fieldCommand_of_exec (readBits w.bits (s.scalar w rs1) · (s.operand rs3))
    (encodedAs_postures (by simp) rfl rfl rfl) rfl rfl rfl fun i hfits j => ?_
  rw [State.finish_getLsbD s rd (readBits_lt (s.scalar_lt w rs1) i _), testBit_readBits, State.testBit_scalar]
  show _ = (decide (j < s.operand rs3) && _)
  by_cases hj : j < s.operand rs3
  · rw [lowBit_of_lt (show i + j < w.bits by omega)]
  · simp only [hj, decide_false, Bool.false_and]

/-- Settles O32, from the bits of `write_bits`. -/
theorem wrbitsWritesTheField : Obligations.WrbitsWritesTheField := by
  unfold Obligations.WrbitsWritesTheField
  intro w rd rs1 rs2 rs3 rs4 s
  refine fieldCommand_of_exec (writeBits w.bits (s.scalar w rs1) · (s.operand rs3) (s.operand rs4))
    (encodedAs_postures (by simp) rfl rfl rfl) rfl rfl rfl fun i hfits j => ?_
  have hv := s.scalar_lt w rs1
  rw [State.finish_getLsbD s rd (writeBits_lt hv hfits _), testBit_writeBits hv hfits, State.testBit_scalar,
    State.testBit_operand, State.operand]

end Sys2Proof.Machine
end

section
/-! PROOFS. The ends of a command that touches one byte of `MEM` (20_memory.md R41, R46), and the bit and field written
inside that byte (42_buffer_bit_ops.md R130). -/

namespace Sys2Proof.Machine
open Sys2Proof.Claims

/-- The bit offset of a flat bit index lies in a byte (40_datapath_functions.md R80). -/
theorem State.bitIndex_lt (s : State) (r : Reg) : s.bitIndex r < 8 := by
  rw [State.bitIndex, split_eq]
  exact Nat.mod_lt _ (by decide)

/-- Bits of `set_bit`, by the bit set. -/
theorem testBit_setBit_eq_ite (W v i j : Nat) : (setBit W v i).testBit j = if j = i then true else v.testBit j := by
  rw [testBit_setBit]
  split <;> simp [*]

/-- Bits of `clear_bit`, by the bit cleared. -/
theorem testBit_clearBit_eq_ite {W v i : Nat} (hv : v < 2 ^ W) (hi : i < W) (j : Nat) :
    (clearBit W v i).testBit j = if j = i then false else v.testBit j := by
  rw [testBit_clearBit hv hi]
  split <;> simp [*]

/-! ### What the statements call the two ends -/

/-- A register written and accesses made, `MEM` as it was, is what the statements call `RegisterOnly`. -/
theorem State.setX_complete_registerOnly (s : State) (rd : Reg) (w : Xword) (l : List Access) :
    RegisterOnly s ((s.setX rd w).complete .ok l) rd l where
  otherRegisters r hr := by
    show (s.setX rd w).x[r] = _
    rw [State.setX_get, if_neg hr.symm]
  views := rfl
  memory _ := rfl
  status := rfl
  response := rfl
  accesses := rfl
  others := ⟨rfl, rfl, rfl⟩

/-- One byte read and written is what the statements call `StoresOnly`: in canonical memory the byte stored is the one
read back (20_memory.md R51). -/
theorem State.setMem_complete_storesOnly {s : State} (hw : s.mem.wf) (a : Nat) (b : Byte) :
    StoresOnly s ((s.setMem (s.mem.write a b)).complete .ok [.load a, .store a b]) a where
  registers := rfl
  views := rfl
  otherBytes _ hc := Memory.read_write_other b hc
  status := rfl
  response := rfl
  accesses := by simp [Memory.read_write_same hw]
  others := ⟨rfl, rfl, rfl⟩

/-! ### The three ends of a buffer command (42_buffer_bit_ops.md R130) -/

section
variable {i : Instr} {s : State} {a : Nat}

theorem completes_raise_bufferIndex (h : exec i s = .next (s.raise .bufferIndex)) :
    Completes i s fun t => Raises s t 4 :=
  ⟨_, h, s.raise_raises .bufferIndex⟩

/-- A read of a byte of `MEM` leaves its bit as 0 or 1 in the destination register. -/
theorem completes_loadBit {rd : Reg} {bit : Nat} (h : exec i s = s.loadBit rd a bit) (ha : a < s.memBytes.val) :
    Completes i s fun t =>
      RegisterOnly s t rd [.load a] ∧ t.x[rd] = if (s.mem.read a).getLsbD bit then 1 else 0 := by
  refine ⟨_, h.trans (if_pos ha), s.setX_complete_registerOnly rd _ _, ?_⟩
  rw [State.complete_x, State.setX_get, if_pos rfl, readBit_eq_testBit, BitVec.testBit_toNat]
  split <;> rfl

/-- A read-modify-write of a byte of `MEM` leaves there the bits that the update gives. -/
theorem completes_updateByte {f : Nat → Nat} {bit : Nat → Bool} (hw : s.mem.wf) (h : exec i s = s.updateByte a f)
    (ha : a < s.memBytes.val) (hbit : ∀ j, (f (s.mem.read a).toNat).testBit j = bit j) :
    Completes i s fun t => StoresOnly s t a ∧ ∀ j, j < 8 → (t.mem.read a).getLsbD j = bit j := by
  refine ⟨_, h.trans (if_pos ha), State.setMem_complete_storesOnly hw a _, fun j hj => ?_⟩
  rw [State.complete_mem, State.setMem_mem, Memory.read_write_same hw, BitVec.getLsbD_ofNat, hbit, decide_eq_true hj,
    Bool.true_and]

end

/-- A buffer command whose update `f` gives the indexed bit the value `st` and keeps the other seven does so to the byte at
the flat index, or raises `BufferIndex` when that byte is not in `MEM`. -/
theorem completes_bufferBitStore {i : Instr} {s : State} {rs1 : Reg} {f : Nat → Nat → Nat} {st : Bool} (hw : s.mem.wf)
    (h : exec i s = if s.byteIndex rs1 ≥ s.memBytes.val then .next (s.raise .bufferIndex)
      else s.updateByte (s.byteIndex rs1) (f · (s.bitIndex rs1)))
    (hf : ∀ {v k : Nat}, v < 2 ^ 8 → k < 8 → ∀ j, (f v k).testBit j = if j = k then st else v.testBit j) :
    (s.byteIndex rs1 < s.memBytes.val → Completes i s fun t =>
      StoresOnly s t (s.byteIndex rs1) ∧
        ∀ j, j < 8 → (t.mem.read (s.byteIndex rs1)).getLsbD j =
          if j = s.bitIndex rs1 then st else (s.mem.read (s.byteIndex rs1)).getLsbD j) ∧
    (s.memBytes.val ≤ s.byteIndex rs1 → Completes i s fun t => Raises s t 4) := by
  constructor
  · intro ha
    exact completes_updateByte hw (h.trans (if_neg (Nat.not_le.mpr ha))) ha (hf (BitVec.isLt _) (s.bitIndex_lt rs1))
  · intro ha
    exact completes_raise_bufferIndex (h.trans (if_pos ha))

/-! ### The ends of `BWRBITS`, in the order of its checks (42_buffer_bit_ops.md R135, 60_exceptions.md R184) -/

section
variable (rs1 rs2 rs3 : Reg) {s : State}

theorem exec_bwrbits_of_crosses (hcross : 8 - s.bitIndex rs1 < s.operand rs3) :
    exec (.bwrbits rs1 rs2 rs3) s = .next (s.raise .outOfRange) :=
  if_pos hcross

theorem exec_bwrbits_of_fits (hfits : s.operand rs3 ≤ 8 - s.bitIndex rs1) :
    exec (.bwrbits rs1 rs2 rs3) s =
      if s.byteIndex rs1 ≥ s.memBytes.val then .next (s.raise .bufferIndex)
      else s.updateByte (s.byteIndex rs1) fun b =>
        writeBits 8 b (s.bitIndex rs1) (s.operand rs3) (s.operand rs2) :=
  if_neg (Nat.not_lt.mpr hfits)

end

end Sys2Proof.Machine
end

section
/-! PROOFS. The statements about the Byte-Buffer Bit Ops commands (42_buffer_bit_ops.md). -/

namespace Sys2Proof.Machine
open Sys2Proof.Claims

/-- Settles O33, by the check of the byte index. -/
theorem bgetReadsOneBit : Obligations.BgetReadsOneBit := by
  unfold Obligations.BgetReadsOneBit
  intro rd rs1 s
  have hexec : exec (.bget rd rs1) s = if s.byteIndex rs1 ≥ s.memBytes.val then .next (s.raise .bufferIndex)
    else s.loadBit rd (s.byteIndex rs1) (s.bitIndex rs1) := rfl
  exact ⟨encodedAs_of_instrFields (by simp) (by simp) rfl,
    fun ha => completes_loadBit (hexec.trans (if_neg (Nat.not_le.mpr ha))) ha,
    fun ha => completes_raise_bufferIndex (hexec.trans (if_pos ha))⟩

/-- Settles O34, from the bits of `set_bit`, `clear_bit` and `write_bit`. -/
theorem bufferBitStoresChangeOneBit : Obligations.BufferBitStoresChangeOneBit := by
  unfold Obligations.BufferBitStoresChangeOneBit
  intro rs1 rs2 s hw
  refine ⟨⟨encodedAs_of_instrFields (by simp) (by simp) rfl, encodedAs_of_instrFields (by simp) (by simp) rfl,
    encodedAs_of_instrFields (by simp) (by simp) rfl⟩, ?_⟩
  have hset := completes_bufferBitStore (i := .bset rs1) (f := setBit 8) (st := true) hw rfl
    fun _ _ => testBit_setBit_eq_ite 8 _ _
  have hclear := completes_bufferBitStore (i := .bclr rs1) (f := clearBit 8) (st := false) hw rfl
    fun hv hk => testBit_clearBit_eq_ite hv hk
  have hwrite := completes_bufferBitStore (i := .bwr rs1 rs2) (f := (writeBit 8 · · (s.operand rs2)))
    (st := decide (s.x[rs2] ≠ 0)) hw rfl fun hv hk j => by
      rw [testBit_writeBit hv hk]
      simp only [ne_eq, State.operand_eq_zero_iff]
  simp only [List.forall_mem_cons]
  exact ⟨hset, hclear, hwrite, fun _ h => (List.not_mem_nil h).elim⟩

/-- Settles O35, from the bits of `write_bits`; a field that does not cross the byte fits in its 8 bits. -/
theorem bwrbitsWritesAFieldOfOneByte : Obligations.BwrbitsWritesAFieldOfOneByte := by
  unfold Obligations.BwrbitsWritesAFieldOfOneByte
  intro rs1 rs2 rs3 s hw
  refine ⟨encodedAs_of_instrFields (by simp) (by simp) rfl, fun hcross => ?_, fun hfits ha => ?_, fun hfits ha => ?_⟩
  · exact completes_raise_outOfRange (exec_bwrbits_of_crosses rs1 rs2 rs3 hcross)
  · exact completes_raise_bufferIndex ((exec_bwrbits_of_fits rs1 rs2 rs3 hfits).trans (if_pos ha))
  · have hexec := (exec_bwrbits_of_fits rs1 rs2 rs3 hfits).trans (if_neg (Nat.not_le.mpr ha))
    have hfield : s.bitIndex rs1 + s.operand rs3 ≤ 8 := by
      have hbit := s.bitIndex_lt rs1
      change s.operand rs3 ≤ _ at hfits
      omega
    refine completes_updateByte hw hexec ha fun j => ?_
    rw [testBit_writeBits (BitVec.isLt _) hfield, State.testBit_operand, BitVec.testBit_toNat, State.operand]

end Sys2Proof.Machine
end

section
/-! PROOFS. The ends of the Bit View commands (43_bit_view.md): a view constructed, one bit of a view, a view filled, two
views compared. -/

namespace Sys2Proof.Machine
open Sys2Proof.Claims

/-! ### Construction (43_bit_view.md R140) -/

/-- A slice inside `MEM` and a window inside the slice give a geometry; the whole bytes before the window are taken off
the slice. -/
theorem construct_of_fits {M b n st l : Nat} (hslice : b + n ≤ M) (hwindow : st + l ≤ n * 8) :
    construct M b n st l = some { base := b + st / 8, nbytes := n - st / 8, start := st % 8, length := l } := by
  have hstart : st &&& 7 = st % 8 := Nat.and_two_pow_sub_one_eq_mod st 3
  have hbyte : st >>> 3 = st / 8 := Nat.shiftRight_eq_div_pow st 3
  rw [construct, if_neg (Nat.not_lt.mpr hslice), if_neg (Nat.not_lt.mpr hwindow), hstart, hbyte]

/-- A slice that leaves `MEM`, or a window that leaves the slice, gives none. -/
theorem construct_of_not_fits {M b n st l : Nat} (h : M < b + n ∨ n * 8 < st + l) : construct M b n st l = none := by
  unfold construct
  split
  · rfl
  · next hslice => exact if_pos (h.resolve_left hslice)

/-- A descriptor holds the geometry of a construction: no field but the base can overflow (10_state.md R23, log 8). -/
theorem State.descOf_viewIs (s : State) {b n st l : Nat} (hslice : b + n ≤ s.memBytes.val) (hwindow : st + l ≤ n * 8) :
    ViewIs (s.descOf { base := b + st / 8, nbytes := n - st / 8, start := st % 8, length := l }) (b + st / 8)
      (n - st / 8) (st % 8) l := by
  have hmem := s.memBytes.isLt
  simp only [ViewIs, State.descOf, fitsBase, decide_eq_true_eq, BitVec.toNat_ofNat]
  refine ⟨fun hbase => ?_, ?_, ?_, ?_⟩
  · rw [if_pos hbase, BitVec.toNat_ofNat, Nat.mod_eq_of_lt hbase]
  all_goals omega

/-- A view put in `v[vd]` and nothing else is what the statements call `ViewOnly`. -/
theorem State.putView_some_viewOnly (s : State) (vd : ViewIdx) (g : Geometry) :
    ViewOnly s (s.putView vd (some g)) vd where
  registers := s.putView_some_x vd g
  otherViews k hk := by
    have hset := s.setView_get vd k (s.descOf g)
    rwa [if_neg hk.symm, State.setView_v, ← s.putView_some_v vd g] at hset
  memory a := by rw [State.putView_some_mem]
  status := s.putView_some_status vd g
  response := s.putView_some_reply vd g
  accesses := s.putView_some_trace vd g
  others := ⟨s.putView_some_memBytes vd g, s.putView_some_inputs vd g, s.putView_some_index vd g⟩

/-- The view put in `v[vd]`. -/
theorem State.putView_some_get (s : State) (vd : ViewIdx) (g : Geometry) :
    (s.putView vd (some g)).v[vd] = s.descOf g := by
  have hset := s.setView_get vd vd (s.descOf g)
  rwa [if_pos rfl, State.setView_v, ← s.putView_some_v vd g] at hset

/-- A construction command leaves the view of its geometry in its destination, or raises `MalformedGeometry`. -/
theorem completes_construct {i : Instr} {s : State} {vd : ViewIdx} {b n st l : Nat}
    (h : exec i s = .next (s.putView vd (construct s.memBytes.val b n st l))) :
    (b + n ≤ s.memBytes.val ∧ st + l ≤ n * 8 → Completes i s fun t =>
      ViewOnly s t vd ∧ ViewIs t.v[vd] (b + st / 8) (n - st / 8) (st % 8) l) ∧
    (s.memBytes.val < b + n ∨ n * 8 < st + l → Completes i s fun t => Raises s t 2) := by
  refine ⟨fun ⟨hslice, hwindow⟩ => ?_, fun hnot => ?_⟩
  · rw [construct_of_fits hslice hwindow] at h
    refine ⟨_, h, s.putView_some_viewOnly vd _, ?_⟩
    rw [State.putView_some_get]
    exact s.descOf_viewIs hslice hwindow
  · rw [construct_of_not_fits hnot] at h
    exact ⟨_, h, s.raise_raises .malformedGeometry⟩

/-- `VNEWS` is a construction also where its own checks fail: construction makes the same checks (43_bit_view.md R142). -/
theorem exec_vnews (vd : ViewIdx) (rs1 rs2 rs3 : Reg) (s : State) :
    exec (.vnews vd rs1 rs2 rs3) s = .next (s.putView vd (construct s.memBytes.val (s.operand rs1) (s.operand rs2)
      (s.operand rs3) (s.operand rs2 * 8 - s.operand rs3))) := by
  show execVnews vd rs1 rs2 rs3 s = _
  unfold execVnews
  split
  · next hslice => rw [construct_of_not_fits (.inl hslice), State.putView_none]
  · split
    · next hstart => rw [construct_of_not_fits (.inr (by omega)), State.putView_none]
    · rfl

/-! ### One bit of a view (43_bit_view.md R144, R145) -/

/-- A flat bit is 0 or 1. -/
theorem Memory.flatBit_le_one (m : Memory) (f : Nat) : m.flatBit f ≤ 1 := by
  rw [flatBit_eq]
  split <;> decide

/-- A state read from a register, normalised (40_datapath_functions.md R84). -/
theorem State.norm_operand (s : State) (r : Reg) : norm (s.operand r) = if s.x[r] = 0 then 0 else 1 := by
  simp only [norm, ne_eq, ite_not, State.operand_eq_zero_iff]

/-- `VGET` below the length of a view inside `MEM` reads the view bit. -/
theorem completes_vget {s : State} {va : ViewIdx} {rs1 : Reg} (hok : s.v[va].ok s.memBytes.val)
    (hi : s.operand rs1 < s.v[va].length.toNat) (rd : Reg) :
    Completes (.vget rd va rs1) s fun t =>
      RegisterOnly s t rd [.load (split (viewflat s.v[va] (s.operand rs1))).1] ∧
        (t.x[rd]).toNat = s.mem.flatBit (viewflat s.v[va] (s.operand rs1)) := by
  refine ⟨_, exec_vget_of_lt hok hi rd, s.setX_complete_registerOnly rd _ _, ?_⟩
  have hbit := s.mem.flatBit_le_one (viewflat s.v[va] (s.operand rs1))
  rw [State.complete_x, State.setX_get, if_pos rfl, BitVec.toNat_ofNat]
  omega

/-! ### A view filled (43_bit_view.md R148) -/

/-- The plan of a view has an entry for the byte of every bit of the view. -/
theorem exists_entry_of_covers {d : ViewDesc} {a j : Nat} (hj : j < 8) (h : covers d (8 * a + j)) :
    ∃ e ∈ fillplan d.start.toNat d.length.toNat, a = d.base.toNat + e.1 := by
  obtain ⟨hlow, hhigh⟩ := h
  have hstart := d.start.isLt
  have hlength : d.length.toNat ≠ 0 := by omega
  have hoffset : a - d.base.toNat ∈ (fillplan d.start.toNat d.length.toNat).map Prod.fst := by
    rw [map_fst_fillplan hlength, List.mem_range]
    omega
  obtain ⟨e, he, hfst⟩ := List.mem_map.mp hoffset
  exact ⟨e, he, by omega⟩

/-- The mask of an entry is a byte, whose bits are those of the view. -/
theorem mask_of_mem_fillplan {d : ViewDesc} {e : Nat × Nat} (he : e ∈ fillplan d.start.toNat d.length.toNat) :
    e.2 < 256 ∧ ∀ j < 8, e.2.testBit j = true ↔ covers d (8 * (d.base.toNat + e.1) + j) := by
  obtain ⟨-, hmasks⟩ := fillPlanCoversExactlyTheView d.start.toNat d.length.toNat (Nat.le_of_lt_succ d.start.isLt)
  obtain ⟨hlt, hbits⟩ := hmasks e he
  refine ⟨hlt, fun j hj => ?_⟩
  rw [hbits j hj, decide_eq_true_eq, covers]
  omega

/-- A fill changes the bytes of its plan by their masks, and no other byte. -/
theorem fillBus_read {m : Memory} (hm : m.wf) (d : ViewDesc) (f : Bool) :
    (∀ e ∈ fillplan d.start.toNat d.length.toNat, (fillBus d f m).mem.read (d.base.toNat + e.1) =
      filledByte f e.2 (m.read (d.base.toNat + e.1))) ∧
    ∀ a, (∀ e ∈ fillplan d.start.toNat d.length.toNat, a ≠ d.base.toNat + e.1) →
      (fillBus d f m).mem.read a = m.read a := by
  obtain ⟨hentry, hother, -⟩ := fillPlan_fold d.base.toNat f _ { mem := m, trace := [] } hm (fillplan_pairwise _ _)
  exact ⟨hentry, hother⟩

/-- A fill gives the fill bit to the bits of its view and keeps every other bit of `MEM`. -/
theorem getLsbD_fillBus {m : Memory} (hm : m.wf) (d : ViewDesc) (f : Bool) (a : Nat) {j : Nat} (hj : j < 8) :
    (covers d (8 * a + j) → ((fillBus d f m).mem.read a).getLsbD j = f) ∧
      (¬ covers d (8 * a + j) → ((fillBus d f m).mem.read a).getLsbD j = (m.read a).getLsbD j) := by
  obtain ⟨hentry, hother⟩ := fillBus_read hm d f
  by_cases hplan : ∃ e ∈ fillplan d.start.toNat d.length.toNat, a = d.base.toNat + e.1
  · obtain ⟨e, he, rfl⟩ := hplan
    obtain ⟨hlt, hmask⟩ := mask_of_mem_fillplan he
    rw [hentry e he, getLsbD_filledByte f _ hj hlt, ← hmask j hj]
    exact ⟨fun h => if_pos h, fun h => if_neg h⟩
  · refine ⟨fun h => absurd (exists_entry_of_covers hj h) hplan, fun _ => ?_⟩
    rw [hother a fun e he ha => hplan ⟨e, he, ha⟩]

/-- The flat bits that a fill leaves. -/
theorem flatBit_fillBus {m : Memory} (hm : m.wf) (d : ViewDesc) (f : Bool) (g : Nat) :
    (covers d g → (fillBus d f m).mem.flatBit g = boolNat f) ∧
      (¬ covers d g → (fillBus d f m).mem.flatBit g = m.flatBit g) := by
  obtain ⟨hin, hout⟩ := getLsbD_fillBus hm d f (g / 8) (Nat.mod_lt g (by decide))
  rw [Nat.div_add_mod] at hin hout
  rw [Memory.flatBit_eq, Memory.flatBit_eq]
  exact ⟨fun h => by rw [hin h, boolNat], fun h => by rw [hout h]⟩

/-- A fill of a view inside `MEM` is what the statements call `Filled`. -/
theorem completes_fill {i : Instr} {s : State} {d : ViewDesc} {f : Bool} (hw : s.mem.wf) (hok : d.ok s.memBytes.val)
    (h : exec i s = s.fill d f) : Completes i s fun t => Filled s t d (boolNat f) := by
  refine ⟨_, h.trans (if_pos hok.spanInside), ?_⟩
  exact {
    inView := fun g hg => (flatBit_fillBus hw d f g).1 hg
    outside := fun g hg => (flatBit_fillBus hw d f g).2 hg
    accesses := fillBus_trace_of_wf hw d f
    registers := rfl
    views := rfl
    status := rfl
    response := rfl
    others := ⟨rfl, rfl, rfl⟩ }

/-- The fill bit of `VFILL`, as a number, is the normalised state (43_bit_view.md R151). -/
theorem boolNat_norm_beq_one (n : Nat) : boolNat (norm n == 1) = norm n := by
  unfold norm
  split <;> rfl

/-! ### Two views compared (43_bit_view.md R152) -/

/-- An enumeration has an element for each bit of the view (43_bit_view.md R157). -/
theorem length_enumerate (m : Memory) (d : ViewDesc) : (enumerate m d).length = d.length.toNat := by
  simp [enumerate]

/-- The elements of an enumeration are the bits of the view in their order. -/
theorem getElem?_enumerate_eq_some {m : Memory} {d : ViewDesc} {n b : Nat} (h : (enumerate m d)[n]? = some b) :
    n < d.length.toNat ∧ b = m.flatBit (viewflat d n) := by
  obtain ⟨hn, hb⟩ := List.getElem?_eq_some_iff.mp h
  rw [length_enumerate] at hn
  refine ⟨hn, ?_⟩
  rw [← hb]
  simp [enumerate]

/-- Two views are equal exactly when they have the same sequence of bits. -/
theorem vieweq_iff (m : Memory) (a b : ViewDesc) : vieweq m a b = true ↔ enumerate m a = enumerate m b := by
  simp only [vieweq, Bool.and_eq_true, beq_iff_eq, List.all_eq_true, List.mem_range]
  constructor
  · rintro ⟨hlength, hbits⟩
    rw [enumerate, enumerate, ← hlength]
    exact List.map_congr_left fun n hn => hbits n (List.mem_range.mp hn)
  · intro h
    have hlength : a.length = b.length := by
      have hlen := congrArg List.length h
      rw [length_enumerate, length_enumerate] at hlen
      exact BitVec.eq_of_toNat_eq hlen
    rw [enumerate, enumerate, ← hlength] at h
    exact ⟨hlength, fun n hn => List.map_inj_left.mp h n (List.mem_range.mpr hn)⟩

/-- A comparison of two views inside `MEM` makes reads as the rule says and leaves its result in `x[rd]`. -/
theorem completes_compareViews {i : Instr} {s : State} {rd : Reg} {a b : ViewDesc} {result : Bool → Nat}
    (ha : a.ok s.memBytes.val) (hb : b.ok s.memBytes.val) (h : exec i s = s.compareViews rd a b result) :
    Completes i s fun t => (∃ l, RegisterOnly s t rd l ∧ comparisonReads a b l) ∧
      t.x[rd] = BitVec.ofNat 64 (result (vieweq s.mem a b)) := by
  by_cases hbits : comparesBits a b = true
  · have hinside : (s.spanInside a && s.spanInside b) = true := by rw [ha.spanInside, hb.spanInside]; rfl
    rw [State.compareViews, if_pos hbits, if_pos hinside] at h
    have hreg := s.setX_complete_registerOnly rd (BitVec.ofNat 64 (result (vieweq s.mem a b))) (eqReads a b s.draws)
    refine ⟨_, h, ⟨_, ?_, comparisonReads_eqReads hbits s.draws⟩, ?_⟩
    · exact ⟨hreg.otherRegisters, hreg.views, hreg.memory, hreg.status, hreg.response, hreg.accesses, hreg.others⟩
    · rw [State.complete_x, State.drawn_x, State.setX_get, if_pos rfl]
  · rw [State.compareViews, if_neg hbits] at h
    exact ⟨_, h, ⟨[], s.finish_registerOnly rd _, comparisonReads_nil a b⟩, s.finish_get rd _⟩

end Sys2Proof.Machine
end

section
/-! PROOFS. The statements about the Bit View commands (43_bit_view.md), and that every command ends. -/

namespace Sys2Proof.Machine
open Sys2Proof.Claims

/-- Settles O15: a fault shows a descriptor that breaks the invariant, and no command is refused. -/
theorem everyCommandEnds : Obligations.EveryCommandEnds := by
  unfold Obligations.EveryCommandEnds
  intro i s hs
  obtain ⟨hfault, hrefused⟩ := commandsFaultOnlyOutsideTheInvariant i s
  cases h : exec i s with
  | next t => exact ⟨t, rfl⟩
  | fault f =>
    obtain ⟨-, k, hk⟩ := hfault f h
    exact absurd (hs.views k) hk
  | refused r => exact absurd h (hrefused r)

/-- Settles O36: the window is the whole slice, so it fits whenever the slice is inside `MEM`. -/
theorem vnewConstructsTheWholeSlice : Obligations.VnewConstructsTheWholeSlice := by
  unfold Obligations.VnewConstructsTheWholeSlice
  intro vd rs1 rs2 s
  obtain ⟨hfits, hnot⟩ := completes_construct (i := .vnew vd rs1 rs2) (s := s) rfl
  have hwindow : 0 + s.operand rs2 * 8 ≤ s.operand rs2 * 8 := (Nat.zero_add _).le
  exact ⟨encodedAs_of_instrFields (by simp) (by simp) rfl, fun hslice => hfits ⟨hslice, hwindow⟩,
    fun hslice => hnot (.inl hslice)⟩

/-- Settles O37: the window ends where the slice ends, so it fits whenever its start is in the slice. -/
theorem vnewsConstructsFromTheStart : Obligations.VnewsConstructsFromTheStart := by
  unfold Obligations.VnewsConstructsFromTheStart
  intro vd rs1 rs2 rs3 s
  obtain ⟨hfits, hnot⟩ := completes_construct (exec_vnews vd rs1 rs2 rs3 s)
  refine ⟨encodedAs_of_instrFields (by simp) (by simp) rfl, fun ⟨hslice, hstart⟩ => hfits ⟨hslice, ?_⟩,
    fun h => hnot (h.imp_right fun hstart => ?_)⟩
  · exact (Nat.add_sub_cancel' hstart).le
  · exact Nat.lt_add_right _ hstart

/-- Settles O38, from what construction gives. -/
theorem vnewslConstructsTheWindow : Obligations.VnewslConstructsTheWindow := by
  unfold Obligations.VnewslConstructsTheWindow
  intro vd rs1 rs2 rs3 rs4 s
  exact ⟨encodedAs_of_instrFields (by simp) (by simp) rfl, completes_construct rfl⟩

/-- Settles O40: the check of the index, then the bit of `MEM` at the flat index of the view bit. -/
theorem vgetReadsTheViewBit : Obligations.VgetReadsTheViewBit := by
  unfold Obligations.VgetReadsTheViewBit
  intro rd va rs1 s
  exact ⟨encodedAs_of_instrFields (by simp) (by simp) rfl, fun hok hi => completes_vget hok hi rd,
    fun hi => completes_raise_outOfRange (if_pos hi)⟩

/-- Settles O41: the check of the index, then one bit of `MEM` written at the flat index of the view bit. -/
theorem vputWritesTheViewBit : Obligations.VputWritesTheViewBit := by
  unfold Obligations.VputWritesTheViewBit
  intro va rs1 rs2 s hw
  refine ⟨encodedAs_of_instrFields (by simp) (by simp) rfl, fun hok hi => ?_,
    fun hi => completes_raise_outOfRange (if_pos hi)⟩
  refine ⟨_, exec_vput_of_lt hok hi rs2, State.setMem_complete_storesOnly hw _ _, fun f => ?_⟩
  rw [State.complete_mem, State.setMem_mem, Memory.flatBit_putBit hw, State.norm_operand]
  rfl

/-- Settles O43: the length fits a register, and a window inside a slice of no bytes has no bits. -/
theorem vlenAndVemptyReadTheDescriptor : Obligations.VlenAndVemptyReadTheDescriptor := by
  unfold Obligations.VlenAndVemptyReadTheDescriptor
  intro rd va s
  refine ⟨⟨encodedAs_of_instrFields (by simp) (by simp) rfl, encodedAs_of_instrFields (by simp) (by simp) rfl⟩,
    completes_finish rfl ?_, completes_finish rfl ?_⟩
  · have hlength := s.v[va].length.isLt
    rw [State.finish_get, BitVec.toNat_ofNat]
    omega
  · have hempty : (s.finish rd (boolNat (s.v[va].length == 0 || s.v[va].nbytes == 0))).x[rd] =
        if s.v[va].length.toNat = 0 ∨ s.v[va].nbytes.toNat = 0 then 1 else 0 := by
      rw [State.finish_get, boolNat]
      simp only [Bool.or_eq_true, beq_iff_eq, ← BitVec.toNat_inj, BitVec.ofNat_eq_ofNat, BitVec.toNat_zero]
      split <;> rfl
    refine ⟨hempty, fun ⟨hwindow, _⟩ => ?_⟩
    have hiff : s.v[va].length.toNat = 0 ∨ s.v[va].nbytes.toNat = 0 ↔ s.v[va].length.toNat = 0 := by omega
    rw [hempty, if_congr hiff rfl rfl]
    split
    · next hzero => exact iff_of_true rfl hzero
    · next hbits => exact iff_of_false (by decide) hbits

/-- Settles O45: the fill bit of each command, and what a fill leaves. -/
theorem fillsWriteExactlyTheView : Obligations.FillsWriteExactlyTheView := by
  unfold Obligations.FillsWriteExactlyTheView
  intro va rs1 s hw hok
  refine ⟨⟨encodedAs_of_instrFields (by simp) (by simp) rfl, encodedAs_of_instrFields (by simp) (by simp) rfl,
    encodedAs_of_instrFields (by simp) (by simp) rfl⟩, completes_fill (f := false) hw hok rfl,
    completes_fill (f := true) hw hok rfl, ?_⟩
  rw [← State.norm_operand, ← boolNat_norm_beq_one]
  exact completes_fill hw hok rfl

/-- Settles O48: the comparison holds exactly when the two enumerations are the same. -/
theorem veqAndVneCompareTheBits : Obligations.VeqAndVneCompareTheBits := by
  unfold Obligations.VeqAndVneCompareTheBits
  intro rd va vb s ha hb
  have heq := completes_compareViews (i := .veq rd va vb) (result := boolNat) ha hb rfl
  have hne := completes_compareViews (i := .vne rd va vb) (result := fun equal => boolNat (!equal)) ha hb rfl
  refine ⟨⟨encodedAs_of_instrFields (by simp) (by simp) rfl, encodedAs_of_instrFields (by simp) (by simp) rfl⟩, ?_⟩
  by_cases hsame : enumerate s.mem s.v[va] = enumerate s.mem s.v[vb]
  · rw [(vieweq_iff _ _ _).mpr hsame] at heq hne
    simp only [if_pos hsame]
    exact ⟨heq, hne⟩
  · rw [Bool.eq_false_iff.mpr (mt (vieweq_iff _ _ _).mp hsame)] at heq hne
    simp only [if_neg hsame]
    exact ⟨heq, hne⟩

/-- Settles O49: element `i` of the enumeration is the bit that `VGET` reads at index `i`. -/
theorem vgetEnumeratesTheView : Obligations.VgetEnumeratesTheView := by
  unfold Obligations.VgetEnumeratesTheView
  intro rd va rs1 s hok
  refine ⟨length_enumerate _ _, fun b hb => ?_⟩
  obtain ⟨hi, rfl⟩ := getElem?_enumerate_eq_some hb
  obtain ⟨t, ht, -, hbit⟩ := completes_vget hok hi rd
  exact ⟨t, ht, hbit⟩

/-- Settles O46: the normalised state is 0 exactly for the state 0, and else 1. -/
theorem vfillIsVclrOrVset : Obligations.VfillIsVclrOrVset := by
  unfold Obligations.VfillIsVclrOrVset
  intro va rs1 s
  have hexec : exec (.vfill va rs1) s = s.fill s.v[va] (norm (s.operand rs1) == 1) := rfl
  rw [hexec, State.norm_operand]
  split
  · rfl
  · rfl

/-- Settles O50: both commands raise the condition whatever their operands hold. -/
theorem vequalsAndVhashRaiseUnsupported : Obligations.VequalsAndVhashRaiseUnsupported := by
  unfold Obligations.VequalsAndVhashRaiseUnsupported
  intro rd va vb s
  exact ⟨⟨encodedAs_of_instrFields (by simp) (by simp) rfl, encodedAs_of_instrFields (by simp) (by simp) rfl⟩,
    ⟨_, rfl, s.raise_raises .unsupported⟩, ⟨_, rfl, s.raise_raises .unsupported⟩⟩

end Sys2Proof.Machine
end

section
/-! PROOFS. The statement about the Bounded Scalar commands (44_bounded_scalar.md). -/

namespace Sys2Proof.Machine
open Sys2Proof.Claims

/-- A register read as an operand and written to a register arrives unchanged. -/
theorem State.finish_operand_get (s : State) (rd rs1 : Reg) : (s.finish rd (s.operand rs1)).x[rd] = s.x[rs1] := by
  rw [State.finish_get, State.operand, BitVec.ofNat_toNat, BitVec.setWidth_eq]

/-- A bounded check leaves the raw value in `x[rd]` up to its bound and raises `OutOfRange` above it. -/
theorem completes_checkBound {i : Instr} {s : State} {bound : Nat} {rd rs1 : Reg}
    (h : exec i s = .next (s.checkBound bound rd rs1)) :
    (s.operand rs1 ≤ bound → Completes i s fun t => RegisterOnly s t rd [] ∧ t.x[rd] = s.x[rs1]) ∧
      (bound < s.operand rs1 → Completes i s fun t => Raises s t 1) := by
  rcases s.checkBound_cases bound rd rs1 with ⟨habove, hend⟩ | ⟨hwithin, hend⟩
  · rw [hend] at h
    exact ⟨fun hwithin => absurd habove (Nat.not_lt.mpr hwithin), fun _ => completes_raise_outOfRange h⟩
  · rw [hend] at h
    exact ⟨fun _ => completes_finish h (s.finish_operand_get rd rs1),
      fun habove => absurd habove (Nat.not_lt.mpr hwithin)⟩

/-- Settles O52: each command is the bounded check at its own bound. -/
theorem boundedChecksCopyOrRaise : Obligations.BoundedChecksCopyOrRaise := by
  unfold Obligations.BoundedChecksCopyOrRaise
  intro rd rs1 s
  refine ⟨⟨encodedAs_of_instrFields (by simp) (by simp) rfl, encodedAs_of_instrFields (by simp) (by simp) rfl,
    encodedAs_of_instrFields (by simp) (by simp) rfl⟩, ?_⟩
  simp only [List.forall_mem_cons]
  have hchk3 := completes_checkBound (i := .chk3 rd rs1) (s := s) rfl
  have hchk1 := completes_checkBound (i := .chk1 rd rs1) (s := s) rfl
  have hchk2 := completes_checkBound (i := .chk2 rd rs1) (s := s) rfl
  exact ⟨hchk3, hchk1, hchk2, List.forall_mem_nil _⟩

end Sys2Proof.Machine
end

section
/-! PROOFS. What a code says of the end that published it (60_exceptions.md R180, R182), and why a run goes on: the step
answers a next state and keeps what it needed (R181, R192). -/

namespace Sys2Proof.Machine
open Sys2Proof.Claims

/-! ### The code of an end -/

/-- An end is one of the command's own conditions raised, or it published code 0 (60_exceptions.md R180, R181). -/
theorem Ending.raised_or_statusCode_zero {i : Instr} {s t : State} (h : Ending i s (.next t)) :
    (∃ c : Condition, c.code ∈ failureCodes i ∧ t = s.raise c) ∨ t.statusCode = 0 := by
  cases h with
  | raised c hc hi => exact .inl ⟨c, hi, rfl⟩
  | constructed vd hvd g => exact .inr (State.statusCode_of_status (State.putView_some_status s vd g))
  | finished | finishedAny | loaded | updated | filled | compared => exact .inr (State.statusCode_of_status rfl)

/-- `raise` leaves the code of its condition (60_exceptions.md R181). -/
theorem State.raise_statusCode (s : State) (c : Condition) : (s.raise c).statusCode = c.code :=
  State.statusCode_of_status (s.raise_status c)

/-! ### Progress -/

/-- The register port leaves `MEM_BYTES`. -/
theorem State.portWrite_memBytes (s : State) (p : Port) (w : Xword) : (s.portWrite p w).memBytes = s.memBytes := by
  unfold State.portWrite
  split
  · exact State.setX_memBytes s _ w
  · rfl

/-- No action of the host changes `MEM_BYTES` (log 1). -/
theorem perform_memBytes {a : HostAction} {s t : State} (h : perform a s = .next t) : t.memBytes = s.memBytes := by
  rcases perform_next h with ⟨i, hend⟩ | rfl | ⟨p, w, rfl⟩ | ⟨w, rfl⟩ | ⟨n, b, hn, rfl⟩ | rfl
  · obtain ⟨hbytes, -, -⟩ := hend.others
    exact hbytes
  · exact s.raise_memBytes _
  · exact s.portWrite_memBytes p w
  · exact s.answer_memBytes w
  · exact s.setMem_memBytes _
  · exact s.assertReset_memBytes

/-- A command word answers a next state: its command ends, and an illegal word only raises its condition. -/
theorem exists_runCommand_next {s : State} (hs : s.Inv) (w : CmdWord) : ∃ t, runCommand w s = .next t := by
  cases hw : decode w with
  | command i =>
    rw [runCommand_command hw]
    exact everyCommandEnds i s hs
  | illegal => exact ⟨_, runCommand_illegal hw s⟩

/-- An action that asks only for bytes of `MEM` answers a next state. -/
theorem exists_perform_next {s : State} (hs : s.Inv) {a : HostAction} (ha : a.ok s.memBytes.val) :
    ∃ t, perform a s = .next t := by
  cases a with
  | command w => exact exists_runCommand_next hs w
  | memWrite n b => exact ⟨_, perform_memWrite_inside ha b⟩
  | memRead n => exact ⟨_, perform_memRead_inside ha⟩
  | regWrite | regRead | reset => exact ⟨_, rfl⟩

/-- What a run needs to go on: the invariant of the unit, and a host that asks only for bytes of `MEM`. -/
structure State.Safe (s : State) : Prop where
  inv : s.Inv
  asks : ∀ a ∈ s.inputs, a.ok s.memBytes.val

/-- A safe state steps to a safe one: idle without actions, else by the action performed and taken off the list. -/
theorem State.Safe.exists_step_next {s : State} (hs : s.Safe) : ∃ t, step s = .next t ∧ t.Safe := by
  cases hin : s.inputs with
  | nil => exact ⟨s, step_of_no_inputs hin, hs⟩
  | cons a rest =>
    have hasks : ∀ b ∈ a :: rest, b.ok s.memBytes.val := hin ▸ hs.asks
    obtain ⟨u, hu⟩ := exists_perform_next hs.inv (hasks a List.mem_cons_self)
    have hbytes : u.memBytes = s.memBytes := perform_memBytes hu
    refine ⟨u.advance rest, step_of_perform_next hin hu, (perform_inv hs.inv hu).advance rest, fun b hb => ?_⟩
    rw [State.advance_memBytes, hbytes]
    exact hasks b (List.mem_cons_of_mem a hb)

/-- One step and then `k` more. -/
theorem run_succ_of_step_next {M : Host.Core} {s t : M.State} (h : M.step s = .next t) (k : Nat) :
    M.run (k + 1) s = M.run k t := by
  rw [Host.Core.run, h]

/-- Where every step from a state with a property answers a next state with it, a run never stops. -/
theorem State.neverStops_of_step {P : State → Prop} (hstep : ∀ s, P s → ∃ t, step s = .next t ∧ P t) {s : State}
    (hs : P s) : s.NeverStops := by
  intro k
  induction k generalizing s with
  | zero => exact ⟨s, rfl⟩
  | succ k ih =>
    obtain ⟨t, ht, hpt⟩ := hstep s hs
    obtain ⟨u, hu⟩ := ih hpt
    exact ⟨u, (run_succ_of_step_next (M := Sys2Proof.core) ht k).trans hu⟩

end Sys2Proof.Machine
end

section
/-! PROOFS. The statements about conditions and about runs (60_exceptions.md). -/

namespace Sys2Proof.Machine
open Sys2Proof.Claims

/-- Settles O17: a safe state steps to a safe state. -/
theorem runsNeverStop : Obligations.RunsNeverStop := by
  unfold Obligations.RunsNeverStop
  intro s hs hasks
  exact State.neverStops_of_step (P := State.Safe) (fun _ => State.Safe.exists_step_next) ⟨hs, hasks⟩

/-- Settles O19: the one end with a code other than 0 is a condition raised, which makes no access. -/
theorem failedCommandChangesNothing : Obligations.FailedCommandChangesNothing := by
  unfold Obligations.FailedCommandChangesNothing
  intro i s t h
  rcases (ending_of_exec_next h).raised_or_statusCode_zero with ⟨c, -, rfl⟩ | hzero
  · rw [State.raise_statusCode]
    exact ⟨fun _ => s.raise_raises c, fun htrace => absurd (s.raise_trace c) htrace⟩
  · exact ⟨fun hcode => absurd hzero hcode, fun _ => hzero⟩

/-- Settles O20: a condition raised is one of the command's own. -/
theorem commandsRaiseOnlyTheirOwnConditions : Obligations.CommandsRaiseOnlyTheirOwnConditions := by
  unfold Obligations.CommandsRaiseOnlyTheirOwnConditions
  intro i s t h
  rcases (ending_of_exec_next h).raised_or_statusCode_zero with ⟨c, hown, rfl⟩ | hzero
  · exact .inr (State.raise_statusCode s c ▸ hown)
  · exact .inl hzero

end Sys2Proof.Machine
end
